-- ==== Sys2Proof/Word.lean ====
section
/-! DEFINITION. The widths of the machine: bytes, 16-bit words, 12-bit addresses and the 4-bit indexes
(spec/00_scope.md R7 to R11, spec/30_encoding.md R92). All values are unsigned (R9). -/

namespace Sys2Proof

/-- A byte: the width of a general register, a counter and a memory cell (10_state.md R21, R30, R31, R37). -/
abbrev Byte := BitVec 8

/-- A 16-bit word: an opcode, and the field that holds I, PC or a stack entry (00_scope.md R11). -/
abbrev Word := BitVec 16

/-- The 12-bit `addr` field of an opcode (30_encoding.md R92). -/
abbrev Addr := BitVec 12

/-- The index of a general register, V0..VF (10_state.md R21). -/
abbrev Reg := Fin 16

/-- A key number, 0..15 (10_state.md R44). -/
abbrev Key := Fin 16

/-- The number of rows of a sprite, 0..15 (30_encoding.md R94). -/
abbrev Rows := Fin 16

/-- General register 15, the flag register (10_state.md R22). -/
abbrev VF : Reg := 15

end Sys2Proof
end

