-- ==== Sys2Proof/Syntax.lean ====
section
/-! DEFINITION. The instructions: one constructor per row of spec/opcode_table.json, with the operand fields
of the row (spec/30_encoding.md R95, R107). -/

namespace Sys2Proof

/-- The 34 instructions (30_encoding.md R95). Unknown is no instruction: it is a value of the decoder. -/
inductive Instr where
  /-- 00E0 (R180) -/
  | cls
  /-- 00EE (R125) -/
  | ret
  /-- 1NNN (R126) -/
  | jp (addr : Addr)
  /-- 2NNN (R127) -/
  | call (addr : Addr)
  /-- 3XNN (R140) -/
  | seImm (x : Reg) (kk : Byte)
  /-- 4XNN (R141) -/
  | sneImm (x : Reg) (kk : Byte)
  /-- 5XY0 (R142) -/
  | seReg (x y : Reg)
  /-- 6XNN (R150) -/
  | ldImm (x : Reg) (kk : Byte)
  /-- 7XNN (R151) -/
  | addImm (x : Reg) (kk : Byte)
  /-- 8XY0 (R152) -/
  | ldReg (x y : Reg)
  /-- 8XY1 (R153) -/
  | or (x y : Reg)
  /-- 8XY2 (R154) -/
  | and (x y : Reg)
  /-- 8XY3 (R155) -/
  | xor (x y : Reg)
  /-- 8XY4 (R156) -/
  | addReg (x y : Reg)
  /-- 8XY5 (R157) -/
  | sub (x y : Reg)
  /-- 8XY6 (R158) -/
  | shr (x y : Reg)
  /-- 8XY7 (R159) -/
  | subn (x y : Reg)
  /-- 8XYE (R160) -/
  | shl (x y : Reg)
  /-- 9XY0 (R143) -/
  | sneReg (x y : Reg)
  /-- ANNN (R170) -/
  | ldI (addr : Addr)
  /-- BNNN (R128). It carries `x`, the top nibble of `addr`, as well (R107). -/
  | jpV0 (addr : Addr) (x : Reg)
  /-- CXNN (R161) -/
  | rnd (x : Reg) (kk : Byte)
  /-- DXYN (R181) -/
  | drw (x y : Reg) (n : Rows)
  /-- EX9E (R144) -/
  | skp (x : Reg)
  /-- EXA1 (R145) -/
  | sknp (x : Reg)
  /-- FX07 (R182) -/
  | ldVxDt (x : Reg)
  /-- FX0A (R183) -/
  | ldVxK (x : Reg)
  /-- FX15 (R184) -/
  | ldDtVx (x : Reg)
  /-- FX18 (R185) -/
  | ldStVx (x : Reg)
  /-- FX1E (R171) -/
  | addI (x : Reg)
  /-- FX29 (R172) -/
  | ldF (x : Reg)
  /-- FX33 (R173) -/
  | ldB (x : Reg)
  /-- FX55 (R174) -/
  | stRegs (x : Reg)
  /-- FX65 (R175) -/
  | ldRegs (x : Reg)
  deriving DecidableEq, Repr

/-- The mnemonic of the instruction's row in spec/opcode_table.json (30_encoding.md R95, column "tag"). -/
def Instr.mnemonic : Instr → String
  | .cls => "CLS"
  | .ret => "RET"
  | .jp _ => "JP"
  | .call _ => "CALL"
  | .seImm _ _ => "SE_IMM"
  | .sneImm _ _ => "SNE_IMM"
  | .seReg _ _ => "SE_REG"
  | .ldImm _ _ => "LD_IMM"
  | .addImm _ _ => "ADD_IMM"
  | .ldReg _ _ => "LD_REG"
  | .or _ _ => "OR"
  | .and _ _ => "AND"
  | .xor _ _ => "XOR"
  | .addReg _ _ => "ADD_REG"
  | .sub _ _ => "SUB"
  | .shr _ _ => "SHR"
  | .subn _ _ => "SUBN"
  | .shl _ _ => "SHL"
  | .sneReg _ _ => "SNE_REG"
  | .ldI _ => "LD_I"
  | .jpV0 _ _ => "JP_V0"
  | .rnd _ _ => "RND"
  | .drw _ _ _ => "DRW"
  | .skp _ => "SKP"
  | .sknp _ => "SKNP"
  | .ldVxDt _ => "LD_VX_DT"
  | .ldVxK _ => "LD_VX_K"
  | .ldDtVx _ => "LD_DT_VX"
  | .ldStVx _ => "LD_ST_VX"
  | .addI _ => "ADD_I"
  | .ldF _ => "LD_F"
  | .ldB _ => "LD_B"
  | .stRegs _ => "ST_REGS"
  | .ldRegs _ => "LD_REGS"

end Sys2Proof
end

