-- ==== Sys2Proof/WellFormed.lean ====
section
/-! DEFINITION. Which instruction terms stand for an opcode. Operand values never make an instruction illegal
(spec/30_encoding.md R102) and the field types hold exactly the encodable values, so the one check is on the
field BNNN carries twice (R107). -/

namespace Sys2Proof

/-- An instruction term is well formed when the `x` of BNNN is `opcode[11:8]`, the top nibble of its `addr`
(30_encoding.md R92, R107; 40_cycle_and_flow.md R128). -/
def Instr.WellFormed : Instr → Bool
  | .jpV0 addr x => x.val == addr.toNat / 256
  | _ => true

end Sys2Proof
end

