-- ==== Sys2Proof/Decode.lean ====
section
/-! DEFINITION. Decoding, total on every word and every byte list, and the encoder (spec/30_encoding.md). -/

namespace Sys2Proof

/-- What the decoder reads from an opcode: one of the 34 instructions, or Unknown with the whole opcode
(30_encoding.md R101, R107). -/
inductive Descriptor where
  | instr (i : Instr)
  | unknown (opcode : Word)
  deriving DecidableEq, Repr

/-- The 4-bit field of an opcode whose low bit is bit `lo` (30_encoding.md R92). -/
def nibbleField (w : Word) (lo : Nat) : Fin 16 := (w.extractLsb' lo 4).toFin

/-- The primary selector, bits 15:12 (30_encoding.md R92). -/
def fieldOp (w : Word) : Fin 16 := nibbleField w 12

/-- `x`, bits 11:8 (30_encoding.md R92). -/
def fieldX (w : Word) : Reg := nibbleField w 8

/-- `y`, bits 7:4 (30_encoding.md R92). -/
def fieldY (w : Word) : Reg := nibbleField w 4

/-- `n`, bits 3:0 (30_encoding.md R92). -/
def fieldN (w : Word) : Rows := nibbleField w 0

/-- `kk`, bits 7:0 (30_encoding.md R92). -/
def fieldKk (w : Word) : Byte := w.extractLsb' 0 8

/-- `addr`, bits 11:0 (30_encoding.md R92). -/
def fieldAddr (w : Word) : Addr := w.extractLsb' 0 12

/-- Group 0 is selected on the whole opcode (30_encoding.md R96). -/
def decodeGroup0 (w : Word) : Descriptor :=
  if w = 0x00E0#16 then .instr .cls
  else if w = 0x00EE#16 then .instr .ret
  else .unknown w

/-- Group 8 is selected on `n` (30_encoding.md R97). -/
def decodeGroup8 (w : Word) : Descriptor :=
  match (fieldN w).val with
  | 0x0 => .instr (.ldReg (fieldX w) (fieldY w))
  | 0x1 => .instr (.or (fieldX w) (fieldY w))
  | 0x2 => .instr (.and (fieldX w) (fieldY w))
  | 0x3 => .instr (.xor (fieldX w) (fieldY w))
  | 0x4 => .instr (.addReg (fieldX w) (fieldY w))
  | 0x5 => .instr (.sub (fieldX w) (fieldY w))
  | 0x6 => .instr (.shr (fieldX w) (fieldY w))
  | 0x7 => .instr (.subn (fieldX w) (fieldY w))
  | 0xE => .instr (.shl (fieldX w) (fieldY w))
  | _ => .unknown w

/-- Group E is selected on `kk` (30_encoding.md R98). -/
def decodeGroupE (w : Word) : Descriptor :=
  match (fieldKk w).toNat with
  | 0x9E => .instr (.skp (fieldX w))
  | 0xA1 => .instr (.sknp (fieldX w))
  | _ => .unknown w

/-- Group F is selected on `kk` (30_encoding.md R98). -/
def decodeGroupF (w : Word) : Descriptor :=
  match (fieldKk w).toNat with
  | 0x07 => .instr (.ldVxDt (fieldX w))
  | 0x0A => .instr (.ldVxK (fieldX w))
  | 0x15 => .instr (.ldDtVx (fieldX w))
  | 0x18 => .instr (.ldStVx (fieldX w))
  | 0x1E => .instr (.addI (fieldX w))
  | 0x29 => .instr (.ldF (fieldX w))
  | 0x33 => .instr (.ldB (fieldX w))
  | 0x55 => .instr (.stRegs (fieldX w))
  | 0x65 => .instr (.ldRegs (fieldX w))
  | _ => .unknown w

/-- The decoding procedure (30_encoding.md R96): a total function of the 16 opcode bits alone (R99). Groups 5
and 9 check `n = 0` (90_conflicts.md C3). -/
def decode (w : Word) : Descriptor :=
  match (fieldOp w).val with
  | 0x0 => decodeGroup0 w
  | 0x1 => .instr (.jp (fieldAddr w))
  | 0x2 => .instr (.call (fieldAddr w))
  | 0x3 => .instr (.seImm (fieldX w) (fieldKk w))
  | 0x4 => .instr (.sneImm (fieldX w) (fieldKk w))
  | 0x5 => if fieldN w = 0 then .instr (.seReg (fieldX w) (fieldY w)) else .unknown w
  | 0x6 => .instr (.ldImm (fieldX w) (fieldKk w))
  | 0x7 => .instr (.addImm (fieldX w) (fieldKk w))
  | 0x8 => decodeGroup8 w
  | 0x9 => if fieldN w = 0 then .instr (.sneReg (fieldX w) (fieldY w)) else .unknown w
  | 0xA => .instr (.ldI (fieldAddr w))
  | 0xB => .instr (.jpV0 (fieldAddr w) (fieldX w))
  | 0xC => .instr (.rnd (fieldX w) (fieldKk w))
  | 0xD => .instr (.drw (fieldX w) (fieldY w) (fieldN w))
  | 0xE => decodeGroupE w
  | 0xF => decodeGroupF w
  | _ => .unknown w

/-- The opcode two bytes form, the byte at the lower address first (20_memory.md R69, 30_encoding.md R91). -/
def opcodeOfBytes (hi lo : Byte) : Word := hi ++ lo

/-- The byte of an opcode stored at the lower address, `opcode[15:8]` (30_encoding.md R106). -/
def highByte (w : Word) : Byte := w.extractLsb' 8 8

/-- The byte of an opcode stored at the next address, `opcode[7:0]` (30_encoding.md R106). -/
def lowByte (w : Word) : Byte := w.extractLsb' 0 8

/-- Why a byte list holds no instruction. -/
inductive Reject where
  /-- Two bytes are there and form an opcode outside the table (30_encoding.md R101). -/
  | unknown (opcode : Word)
  /-- Fewer than two bytes are there; every instruction is two bytes long (30_encoding.md R90). -/
  | truncated
  deriving DecidableEq, Repr

/-- The instruction at the head of a byte list and the bytes after it. -/
def decodeBytes : List Byte → Except Reject (Instr × List Byte)
  | hi :: lo :: rest =>
    match decode (opcodeOfBytes hi lo) with
    | .instr i => .ok (i, rest)
    | .unknown w => .error (.unknown w)
  | _ => .error .truncated

/-- The instruction the decoder reads from the opcode `w`, whose bits are numbered as spec/opcode_table.json
numbers them; bits from `nbits` up are 0. The word is laid out high byte first (20_memory.md R69). -/
def decodeTableWord (nbits w : Nat) : Option Instr :=
  match decodeBytes [highByte (BitVec.ofNat 16 (w % 2 ^ nbits)), lowByte (BitVec.ofNat 16 (w % 2 ^ nbits))] with
  | .ok (i, _) => some i
  | .error _ => none

/-- Format X: `match | (x << 8)` (30_encoding.md R106). -/
def wordX (m : Word) (x : Reg) : Word := m ||| (BitVec.ofNat 16 x.val <<< 8)

/-- Format XNN: `match | (x << 8) | kk` (30_encoding.md R106). -/
def wordXNN (m : Word) (x : Reg) (kk : Byte) : Word := m ||| (BitVec.ofNat 16 x.val <<< 8) ||| kk.setWidth 16

/-- Formats XY and XYN: `match | (x << 8) | (y << 4) | n`, with `n` in `match` for XY (30_encoding.md R106). -/
def wordXYN (m : Word) (x y : Reg) (n : Rows) : Word :=
  m ||| (BitVec.ofNat 16 x.val <<< 8) ||| (BitVec.ofNat 16 y.val <<< 4) ||| BitVec.ofNat 16 n.val

/-- Format NNN: `match | addr` (30_encoding.md R106). -/
def wordNNN (m : Word) (addr : Addr) : Word := m ||| addr.setWidth 16

/-- The opcode of a well-formed instruction (30_encoding.md R95, R106). -/
def encode : Instr → Word
  | .cls => 0x00E0
  | .ret => 0x00EE
  | .jp addr => wordNNN 0x1000 addr
  | .call addr => wordNNN 0x2000 addr
  | .seImm x kk => wordXNN 0x3000 x kk
  | .sneImm x kk => wordXNN 0x4000 x kk
  | .seReg x y => wordXYN 0x5000 x y 0
  | .ldImm x kk => wordXNN 0x6000 x kk
  | .addImm x kk => wordXNN 0x7000 x kk
  | .ldReg x y => wordXYN 0x8000 x y 0x0
  | .or x y => wordXYN 0x8000 x y 0x1
  | .and x y => wordXYN 0x8000 x y 0x2
  | .xor x y => wordXYN 0x8000 x y 0x3
  | .addReg x y => wordXYN 0x8000 x y 0x4
  | .sub x y => wordXYN 0x8000 x y 0x5
  | .shr x y => wordXYN 0x8000 x y 0x6
  | .subn x y => wordXYN 0x8000 x y 0x7
  | .shl x y => wordXYN 0x8000 x y 0xE
  | .sneReg x y => wordXYN 0x9000 x y 0
  | .ldI addr => wordNNN 0xA000 addr
  | .jpV0 addr _ => wordNNN 0xB000 addr
  | .rnd x kk => wordXNN 0xC000 x kk
  | .drw x y n => wordXYN 0xD000 x y n
  | .skp x => wordX 0xE09E x
  | .sknp x => wordX 0xE0A1 x
  | .ldVxDt x => wordX 0xF007 x
  | .ldVxK x => wordX 0xF00A x
  | .ldDtVx x => wordX 0xF015 x
  | .ldStVx x => wordX 0xF018 x
  | .addI x => wordX 0xF01E x
  | .ldF x => wordX 0xF029 x
  | .ldB x => wordX 0xF033 x
  | .stRegs x => wordX 0xF055 x
  | .ldRegs x => wordX 0xF065 x

/-- One row of the opcode map (30_encoding.md R95). -/
structure OpcodeRow where
  mnemonic : String
  mask : Word
  pattern : Word
  deriving DecidableEq, Repr

/-- Rows 00E0 to 8XY7 of the opcode map (30_encoding.md R95). -/
def lowRows : List OpcodeRow :=
  [⟨"CLS", 0xFFFF, 0x00E0⟩,
   ⟨"RET", 0xFFFF, 0x00EE⟩,
   ⟨"JP", 0xF000, 0x1000⟩,
   ⟨"CALL", 0xF000, 0x2000⟩,
   ⟨"SE_IMM", 0xF000, 0x3000⟩,
   ⟨"SNE_IMM", 0xF000, 0x4000⟩,
   ⟨"SE_REG", 0xF00F, 0x5000⟩,
   ⟨"LD_IMM", 0xF000, 0x6000⟩,
   ⟨"ADD_IMM", 0xF000, 0x7000⟩,
   ⟨"LD_REG", 0xF00F, 0x8000⟩,
   ⟨"OR", 0xF00F, 0x8001⟩,
   ⟨"AND", 0xF00F, 0x8002⟩,
   ⟨"XOR", 0xF00F, 0x8003⟩,
   ⟨"ADD_REG", 0xF00F, 0x8004⟩,
   ⟨"SUB", 0xF00F, 0x8005⟩,
   ⟨"SHR", 0xF00F, 0x8006⟩,
   ⟨"SUBN", 0xF00F, 0x8007⟩]

/-- Rows 8XYE to FX65 of the opcode map (30_encoding.md R95). -/
def highRows : List OpcodeRow :=
  [⟨"SHL", 0xF00F, 0x800E⟩,
   ⟨"SNE_REG", 0xF00F, 0x9000⟩,
   ⟨"LD_I", 0xF000, 0xA000⟩,
   ⟨"JP_V0", 0xF000, 0xB000⟩,
   ⟨"RND", 0xF000, 0xC000⟩,
   ⟨"DRW", 0xF000, 0xD000⟩,
   ⟨"SKP", 0xF0FF, 0xE09E⟩,
   ⟨"SKNP", 0xF0FF, 0xE0A1⟩,
   ⟨"LD_VX_DT", 0xF0FF, 0xF007⟩,
   ⟨"LD_VX_K", 0xF0FF, 0xF00A⟩,
   ⟨"LD_DT_VX", 0xF0FF, 0xF015⟩,
   ⟨"LD_ST_VX", 0xF0FF, 0xF018⟩,
   ⟨"ADD_I", 0xF0FF, 0xF01E⟩,
   ⟨"LD_F", 0xF0FF, 0xF029⟩,
   ⟨"LD_B", 0xF0FF, 0xF033⟩,
   ⟨"ST_REGS", 0xF0FF, 0xF055⟩,
   ⟨"LD_REGS", 0xF0FF, 0xF065⟩]

/-- The complete opcode map (30_encoding.md R95), the independent description `decode` is held against. -/
def opcodeRows : List OpcodeRow := lowRows ++ highRows

/-- An opcode selects a row when `opcode & mask = match` (30_encoding.md R95). -/
abbrev OpcodeRow.Selects (r : OpcodeRow) (w : Word) : Prop := w &&& r.mask = r.pattern

end Sys2Proof
end

