-- ==== Sys2Proof/Config.lean ====
section
/-! DEFINITION. What is fixed for one session (the parameters of spec/00_scope.md R6), what the
environment supplies to one step (spec/10_state.md R42), and the free value behind it. -/

namespace Sys2Proof

/-- The parameters passed at construction (00_scope.md R6, 10_state.md R38): constant from reset onward. -/
structure Config where
  /-- ENTRY_ADDRESS: what PC takes at reset. -/
  entryAddress : Word
  /-- SPRITE_TABLE_ADDRESS: the base FX29 adds to. -/
  spriteTableAddress : Word
  /-- SHIFT_USES_VY: 8XY6 and 8XYE shift V[y] when true, V[x] when false. -/
  shiftUsesVy : Bool
  /-- I_OVERFLOW_SETS_VF: FX1E writes VF when true. -/
  iOverflowSetsVf : Bool
  /-- JUMP_OFFSET_USES_VX: BNNN adds V[x] when true, V[0] when false. -/
  jumpOffsetUsesVx : Bool
  /-- FONT_IMAGE: the 80 glyph bytes the host may load at SPRITE_TABLE_ADDRESS. -/
  fontImage : Vector Byte 80
  deriving DecidableEq, Repr

/-- The first eight of the customary glyphs (93_implementation_defined.md G3). PRESUMED: log 1. -/
def Config.lowGlyphs : Vector Byte 40 :=
  #v[0xF0, 0x90, 0x90, 0x90, 0xF0, 0x20, 0x60, 0x20, 0x20, 0x70,
     0xF0, 0x10, 0xF0, 0x80, 0xF0, 0xF0, 0x10, 0xF0, 0x10, 0xF0,
     0x90, 0x90, 0xF0, 0x10, 0x10, 0xF0, 0x80, 0xF0, 0x10, 0xF0,
     0xF0, 0x80, 0xF0, 0x90, 0xF0, 0xF0, 0x10, 0x20, 0x40, 0x40]

/-- The last eight of the customary glyphs (93_implementation_defined.md G3). PRESUMED: log 1. -/
def Config.highGlyphs : Vector Byte 40 :=
  #v[0xF0, 0x90, 0xF0, 0x90, 0xF0, 0xF0, 0x90, 0xF0, 0x10, 0xF0,
     0xF0, 0x90, 0xF0, 0x90, 0x90, 0xE0, 0x90, 0xE0, 0x90, 0xE0,
     0xF0, 0x80, 0x80, 0x80, 0xF0, 0xE0, 0x90, 0x90, 0x90, 0xE0,
     0xF0, 0x80, 0xF0, 0x80, 0xF0, 0xF0, 0x80, 0xF0, 0x80, 0x80]

/-- The configuration of `State.reset`: the example values of 95_test_vectors.md's conventions and the
customary glyphs. The spec leaves every one of them OPEN. PRESUMED, unsafe: log 1. No statement rests on them:
the statements are about a state whose `config` is arbitrary. -/
def Config.default : Config where
  entryAddress := 0x200
  spriteTableAddress := 0x050
  shiftUsesVy := false
  iOverflowSetsVf := false
  jumpOffsetUsesVx := false
  fontImage := Config.lowGlyphs ++ Config.highGlyphs

/-- What the environment supplies to one step (10_state.md R42), and how often the clock ticks between the
step before it and this one (60_exceptions.md R215). An input an instruction does not use has no effect. -/
structure StepInput where
  /-- The number of `tick_timers` calls before the step. -/
  ticks : Nat
  /-- `RandomByte()`, used by CXNN (R43). -/
  rand : Byte
  /-- Bit `k` is `KeyIsDown(k)`, used by EX9E and EXA1 (R44). -/
  keysDown : BitVec 16
  /-- The next-key-press event, used by FX0A (R45). -/
  keyPress : Option Key
  /-- The display's answer to this step's draw request, used by DXYN (R47). -/
  collision : Bool
  deriving DecidableEq, Repr, Inhabited

/-- The input of the `n`-th step where the state's own list of inputs has run out. It has no body: every
value is possible at every step (93_implementation_defined.md U1 to U4, U11). FREE VALUE: log 3. -/
opaque Config.freeInput : Nat → StepInput

end Sys2Proof
end

