-- ==== Sys2Proof/Machine/State.lean ====
section
/-! DEFINITION. The state of the machine as plain data, why it can stop, and reset. -/

namespace Sys2Proof.Machine

/-- The error kinds a step or a host operation reports by value (60_exceptions.md R200). An error changes
nothing (R209). The model ends a run at the first one (D26), which is safe: the hardware may be stepped again and
then reports the same error (R212). -/
inductive Fault where
  /-- `OutOfBounds`: raised by the fetch, DXYN, FX33, FX55, FX65, the host's `read` and `write` and the register
  accessors. `info` is the lowest offending address, or the register index (R200, R201). Safe. -/
  | outOfBounds (info : Nat)
  /-- `ImageTooLarge`: raised by the host's `load` only (R205). Safe. -/
  | imageTooLarge (offset len : Nat)
  /-- `StackOverflow`: raised by 2NNN with 12 entries on the stack (R202). Safe. -/
  | stackOverflow
  /-- `StackUnderflow`: raised by 00EE with an empty stack (R203). Safe. -/
  | stackUnderflow
  /-- `UnknownInstruction`: raised by a step whose opcode is outside the table (R204). Safe. -/
  | unknownInstruction (opcode : Word)
  deriving DecidableEq, Repr

/-- What the model gives no meaning. -/
inductive Refusal where
  /-- An arm of `exec` that has no meaning yet. No arm is in this case. Safe. -/
  | notModelled (mnemonic : String)
  /-- The host writes memory, a register or a counter after stepping has begun: "no external mutation once
  running" (93_implementation_defined.md U21, 92 D27). Raised by `HostOps` only, by no instruction. Safe. -/
  | hostMutationWhileRunning
  deriving DecidableEq, Repr

/-- The status the last step returned (40_cycle_and_flow.md R121); an `Error` is a `Fault` instead. -/
inductive Status where
  /-- No step has been taken since reset: the model's own value (log 18). -/
  | notStepped
  | ok
  | waitingForKey
  deriving DecidableEq, Repr

/-- A request to the display collaborator (10_state.md R46, R47). -/
inductive DisplayRequest where
  | clear
  /-- Two raw 8-bit coordinates and the sprite's bytes, top row first (44_io_timers.md R181). -/
  | draw (cx cy : Byte) (rows : List Byte)
  deriving DecidableEq, Repr

/-- Memory as its non-zero cells, lowest address first. A cell not listed holds 0, the value memory is
"created" with (10_state.md R50, 20_memory.md R66). -/
abbrev Memory := List Host.Cell

/-- Everything the spec gives the core (10_state.md R40), its configuration (R38), and the values that cross
its boundary in a step (R42). -/
structure State where
  /-- V0..VF (R21). -/
  v : Vector Byte 16
  /-- I: a 16-bit field whose value is 12-bit (R25, R26). -/
  i : Word
  /-- PC: a 16-bit field whose value is 12-bit (R27). -/
  pc : Word
  /-- DT (R30). -/
  dt : Byte
  /-- ST (R31). -/
  st : Byte
  /-- The call stack, most recently pushed entry first; its length is the depth (R33, R36). -/
  stack : List Word
  /-- Memory (R37). -/
  mem : Memory
  /-- The parameters given to reset, constant from then on (R38). -/
  config : Config
  /-- The inputs of the coming steps, next one first; after the last of them they are free (log 3). -/
  inputs : List StepInput
  /-- How many steps have taken their input: picks the next free input (log 3). -/
  inputCount : Nat
  /-- The status of the last step (R42, log 18). -/
  status : Status
  /-- The display requests sent so far, oldest first (R42, 60_exceptions.md R218, log 18). -/
  requests : List DisplayRequest
  deriving DecidableEq, Repr

/-- `reset(config)` (70_reset_and_hazards.md R240): the state of 10_state.md R50. Memory zero is the source's word;
the zeros of the registers and the empty stack are the spec's choice (D2, log 2). -/
def State.resetWith (c : Config) : State where
  v := Vector.replicate 16 0#8
  i := 0#16
  pc := c.entryAddress &&& 0x0FFF#16
  dt := 0#8
  st := 0#8
  stack := []
  mem := []
  config := c
  inputs := []
  inputCount := 0
  status := .notStepped
  requests := []

/-- The machine right after reset, with the model's default configuration (log 1). -/
def State.reset : State := State.resetWith Config.default

end Sys2Proof.Machine
end

