-- ==== Sys2Proof/Machine/Flags.lean ====
section
/-! DEFINITION. Every flag computation of the spec: the value VF takes in the instructions that set it as a flag
(spec/10_state.md R22). -/

namespace Sys2Proof.Machine

/-- A flag is exactly 0 or 1 (10_state.md R22). -/
def flagByte (f : Bool) : Byte := if f then 1 else 0

/-- 8XY4: the 9-bit sum exceeds 255 (42_alu.md R156). -/
def addCarry (a b : Byte) : Bool := decide (255 < a.toNat + b.toNat)

/-- 8XY5 and 8XY7: `a - b` does not borrow, that is `a >= b` (42_alu.md R157, R159). -/
def noBorrow (a b : Byte) : Bool := decide (b.toNat ≤ a.toNat)

/-- 8XY6: bit 0 of the source before the shift (42_alu.md R158). -/
def shiftedOutRight (src : Byte) : Bool := src.getLsbD 0

/-- 8XYE: bit 7 of the source before the shift (42_alu.md R160). -/
def shiftedOutLeft (src : Byte) : Bool := src.getLsbD 7

/-- FX1E: the sum of I and V[x] exceeds 0xFFF (43_index_memory.md R171). -/
def indexOverflow (i : Word) (b : Byte) : Bool := decide (0xFFF < i.toNat + b.toNat)

end Sys2Proof.Machine
end

