-- ==== Sys2Proof/Machine/Ops.lean ====
section
/-! DEFINITION. The shared operations over memory, registers, the stack and the boundary, the ways a step can
end, and the fetch. Every meaning is written over these. -/

namespace Sys2Proof.Machine

/-- The outcome of a step of this machine. -/
abbrev Outcome := Host.Outcome State Fault Refusal

/-- MEM_SIZE (00_scope.md R5, 20_memory.md R65). -/
abbrev memSize : Nat := 4096

/-- STACK_DEPTH (00_scope.md R5). -/
abbrev stackDepth : Nat := 12

/-! ### Memory -/

/-- The listed addresses rise from `lo` on, stay below 4096, and no listed cell holds 0. -/
def Memory.wfFrom (lo : Nat) : Memory → Bool
  | [] => true
  | (a, b) :: m => decide (lo ≤ a) && decide (a < memSize) && decide (b ≠ 0#8) && Memory.wfFrom (a + 1) m

/-- The canonical form of a memory: 4096 cells, each listed at most once, in order, and only when not 0. -/
def Memory.wf (m : Memory) : Bool := Memory.wfFrom 0 m

/-- The byte a cell holds; a cell not listed holds 0 (10_state.md R50). -/
def Memory.read : Memory → Nat → Byte
  | [], _ => 0#8
  | (a, b) :: m, k => if a = k then b else Memory.read m k

/-- Put `b` in cell `k`, keeping the canonical form. -/
def Memory.write : Memory → Nat → Byte → Memory
  | [], k, b => if b = 0#8 then [] else [(k, b)]
  | (a, c) :: m, k, b =>
    if k < a then (if b = 0#8 then (a, c) :: m else (k, b) :: (a, c) :: m)
    else if k = a then (if b = 0#8 then m else (k, b) :: m)
    else (a, c) :: Memory.write m k b

/-- The `n` bytes from address `a` upward. -/
def Memory.readBytes (m : Memory) (a : Nat) : Nat → List Byte
  | 0 => []
  | n + 1 => m.read a :: m.readBytes (a + 1) n

/-- Store a list of bytes at ascending addresses from `a`. -/
def Memory.writeBytes (m : Memory) (a : Nat) : List Byte → Memory
  | [] => m
  | b :: bs => (m.write a b).writeBytes (a + 1) bs

/-- `MemRead(addr, 1)`: the address is checked, never masked (20_memory.md R62). -/
def memRead (m : Memory) (a : Nat) : Except Fault Byte :=
  if a < memSize then .ok (m.read a) else .error (.outOfBounds a)

/-- `MemWrite(addr, 1, b)` (20_memory.md R63). -/
def memWrite (m : Memory) (a : Nat) (b : Byte) : Except Fault Memory :=
  if a < memSize then .ok (m.write a b) else .error (.outOfBounds a)

/-! ### How a step ends -/

/-- Raise an error: the outcome carries the error kind and its info and no state, since nothing changes and no
request is sent (60_exceptions.md R208, R209). This is all the 'exception entry' the core has. -/
def raise (e : Fault) : Outcome := .fault e

/-- Run `k` when the `len` bytes from `base` all exist; else raise `OutOfBounds` with the lowest offending
address, which is 4096 whenever `base` is an address (20_memory.md R68). No byte, no check (44_io_timers.md R181). -/
def withRange (base len : Nat) (k : Outcome) : Outcome :=
  if len = 0 ∨ base + len ≤ memSize then k else raise (.outOfBounds (max base memSize))

/-- A value as I or PC stores it: masked to 12 bits (10_state.md R26, R27). -/
def mask12 (n : Nat) : Word := BitVec.ofNat 16 (n % 4096)

/-- `NextPC` (40_cycle_and_flow.md R123). -/
def State.nextPc (s : State) : Word := mask12 (s.pc.toNat + 2)

/-- `SkipPC` (40_cycle_and_flow.md R123). -/
def State.skipPc (s : State) : Word := mask12 (s.pc.toNat + 4)

/-- The PC outcome of an instruction (40_cycle_and_flow.md R120, R122). -/
inductive PcOutcome where
  | next
  | skip
  | set (target : Nat)
  deriving DecidableEq, Repr

/-- The PC a PC outcome leads to (40_cycle_and_flow.md R120, step 5). -/
def PcOutcome.target (o : PcOutcome) (s : State) : Word :=
  match o with
  | .next => s.nextPc
  | .skip => s.skipPc
  | .set t => mask12 t

def State.setPc (s : State) (w : Word) : State := { s with pc := w }

def State.setStatus (s : State) (st : Status) : State := { s with status := st }

/-- The one place PC is advanced: steps 5 and 6 of the step (40_cycle_and_flow.md R120, R122). The writes of the
instruction are already in `s`; none of them touches PC, so its PC is still the instruction's own address (R28). -/
def State.completed (s : State) (o : PcOutcome) : State := (s.setPc (o.target s)).setStatus .ok

/-- The step completes with the PC outcome `o` and status `Ok`. -/
def complete (o : PcOutcome) (s : State) : Outcome := .next (s.completed o)

/-- The wait of FX0A: status `WaitingForKey`, nothing else changes, PC included (44_io_timers.md R183). -/
def State.waiting (s : State) : State := s.setStatus .waitingForKey

/-! ### Registers, counters, stack, boundary -/

/-- `V[x]` (00_scope.md R10). -/
def State.readV (s : State) (x : Reg) : Byte := s.v[x]

/-- `V[x] <- b` (00_scope.md R10). -/
def State.writeV (s : State) (x : Reg) (b : Byte) : State := { s with v := s.v.set x b }

/-- Write the result to V[x], then the flag to VF: with `x = 15` the flag remains (42_alu.md R165). -/
def State.writeResultAndFlag (s : State) (x : Reg) (b : Byte) (f : Bool) : State :=
  (s.writeV x b).writeV VF (flagByte f)

/-- `I <- n`, masked to 12 bits (10_state.md R26). -/
def State.writeI (s : State) (n : Nat) : State := { s with i := mask12 n }

/-- A counter value given by the host, "clamped to [0,255]" (10_state.md R32). -/
def clampByte (n : Int) : Byte := BitVec.ofNat 8 (min n.toNat 255)

/-- `DT <- b`. -/
def State.writeDelay (s : State) (b : Byte) : State := { s with dt := b }

/-- `ST <- b`. -/
def State.writeSound (s : State) (b : Byte) : State := { s with st := b }

def State.setStack (s : State) (l : List Word) : State := { s with stack := l }

def State.setMem (s : State) (m : Memory) : State := { s with mem := m }

/-- Send a request to the display (10_state.md R46, R47); requests keep program order (60_exceptions.md R218). -/
def State.emit (s : State) (r : DisplayRequest) : State := { s with requests := s.requests ++ [r] }

/-- `Push(v)`; `none` when 12 entries are there (10_state.md R34). -/
def pushStack (l : List Word) (w : Word) : Option (List Word) :=
  if stackDepth ≤ l.length then none else some (w :: l)

/-- `Pop()`: the most recently pushed value and the rest; `none` when empty (10_state.md R35). -/
def popStack : List Word → Option (Word × List Word)
  | [] => none
  | w :: l => some (w, l)

/-- Load bytes into V[k], V[k+1], ... in ascending order (43_index_memory.md R175). -/
def fillRegs (v : Vector Byte 16) (k : Nat) : List Byte → Vector Byte 16
  | [] => v
  | b :: bs => fillRegs (v.setIfInBounds k b) (k + 1) bs

def State.setRegs (s : State) (v : Vector Byte 16) : State := { s with v := v }

/-- The input of the coming step: the next one of the list, or a free one when the list has run out (log 3). -/
def State.input (s : State) : StepInput :=
  match s.inputs with
  | [] => Config.freeInput s.inputCount
  | e :: _ => e

/-- The step has used its input. -/
def State.consumeInput (s : State) : State :=
  { s with inputs := s.inputs.tail, inputCount := s.inputCount + 1 }

/-! ### The clock -/

/-- `tick_timers()`: each counter down by one, floored at zero (60_exceptions.md R214). -/
def State.tickTimers (s : State) : State :=
  { s with
    dt := if 0 < s.dt.toNat then s.dt - 1 else s.dt
    st := if 0 < s.st.toNat then s.st - 1 else s.st }

/-- A counter after `n` ticks (60_exceptions.md R214). -/
def countDown (c : Byte) (n : Nat) : Byte := if c = 0#8 then 0#8 else BitVec.ofNat 8 (c.toNat - n)

/-- `n` calls of `tick_timers` in one (60_exceptions.md R215). -/
def State.tickMany (s : State) (n : Nat) : State :=
  { s with dt := countDown s.dt n, st := countDown s.st n }

/-! ### Fetch -/

/-- `Fetch(PC)`: the bytes at PC and PC+1, high byte first; PC+1 is not masked (30_encoding.md R91). -/
def fetch (s : State) : Except Fault Word :=
  match memRead s.mem s.pc.toNat with
  | .error f => .error f
  | .ok hi =>
    match memRead s.mem (s.pc.toNat + 1) with
    | .error f => .error f
    | .ok lo => .ok (opcodeOfBytes hi lo)

/-- The state in which the fetched instruction runs: the clock has ticked as often as the step's input says, and
nothing else has happened (60_exceptions.md R215; log 4). -/
def State.beginStep (s : State) : State := s.tickMany s.input.ticks

/-- What the step adds after the instruction: its input is used up. -/
def closeStep : Outcome → Outcome
  | .next t => .next t.consumeInput
  | .fault e => .fault e
  | .refused r => .refused r

/-- Store an opcode's two bytes at `a` and `a + 1`, high byte first, leaving out a byte that has no cell. -/
def Memory.placeOpcode (m : Memory) (a : Nat) (w : Word) : Memory :=
  if a + 1 < memSize then (m.write a (highByte w)).write (a + 1) (lowByte w) else m

end Sys2Proof.Machine
end

