-- ==== Sys2Proof/Machine/Operands.lean ====
section
/-! DEFINITION. Every operand form the spec gives an instruction, read from the state before the step
(spec/40_cycle_and_flow.md R124). -/

namespace Sys2Proof.Machine

/-- The register 8XY6 and 8XYE shift (42_alu.md R158, R160). -/
def State.shiftSource (s : State) (x y : Reg) : Byte :=
  if s.config.shiftUsesVy then s.readV y else s.readV x

/-- The register BNNN adds to `addr` (40_cycle_and_flow.md R128). The choice V[x] is PRESUMED (D8, log 6). -/
def State.jumpOffset (s : State) (x : Reg) : Byte :=
  if s.config.jumpOffsetUsesVx then s.readV x else s.readV 0

/-- The key EX9E and EXA1 ask about: the low nibble of V[x] (41_skips.md R144, D16, log 12). -/
def State.keyNumber (s : State) (x : Reg) : Key := ((s.readV x).extractLsb' 0 4).toFin

/-- `KeyIsDown(k)` in this step (10_state.md R44). -/
def State.keyIsDown (s : State) (k : Key) : Bool := s.input.keysDown.getLsbD k.val

/-- Where FX29 points I before the mask: the whole byte V[x] counts (43_index_memory.md R172, D18, log 14). -/
def State.glyphAddress (s : State) (x : Reg) : Nat :=
  s.config.spriteTableAddress.toNat + (s.readV x).toNat * 5

/-- The three decimal digits of a byte, hundreds first (43_index_memory.md R173). -/
def bcdDigits (b : Byte) : List Byte :=
  [BitVec.ofNat 8 (b.toNat / 100), BitVec.ofNat 8 (b.toNat / 10 % 10), BitVec.ofNat 8 (b.toNat % 10)]

/-- V[0] to V[x], inclusive of V[x] (43_index_memory.md R174). -/
def State.regsUpTo (s : State) (x : Reg) : List Byte := s.v.toList.take (x.val + 1)

/-- The `len` bytes at I, the one data addressing mode: `I + i`, not masked (43_index_memory.md R176). -/
def State.bytesAtI (s : State) (len : Nat) : List Byte := s.mem.readBytes s.i.toNat len

end Sys2Proof.Machine
end

