-- ==== Sys2Proof/Machine/Alu.lean ====
section
/-! DEFINITION. Register load, arithmetic, logic, shift and random: 6XNN, 7XNN, 8XY0 to 8XY7, 8XYE, CXNN
(spec/42_alu.md). Results are reduced modulo 256 (R162). -/

namespace Sys2Proof.Machine

/-- Write a result to V[x] and go on; VF changes only as V[x] (R164). -/
def setReg (x : Reg) (b : Byte) (s : State) : Outcome := complete .next (s.writeV x b)

/-- Write a result to V[x] and then the flag to VF, and go on (R165). -/
def setRegAndFlag (x : Reg) (b : Byte) (f : Bool) (s : State) : Outcome :=
  complete .next (s.writeResultAndFlag x b f)

/-- 6XNN (R150). -/
def execLdImm (x : Reg) (kk : Byte) (s : State) : Outcome := setReg x kk s

/-- 7XNN: no flag change (R151). -/
def execAddImm (x : Reg) (kk : Byte) (s : State) : Outcome := setReg x (s.readV x + kk) s

/-- 8XY0 (R152). -/
def execLdReg (x y : Reg) (s : State) : Outcome := setReg x (s.readV y) s

/-- 8XY1 (R153). -/
def execOr (x y : Reg) (s : State) : Outcome := setReg x (s.readV x ||| s.readV y) s

/-- 8XY2 (R154). -/
def execAnd (x y : Reg) (s : State) : Outcome := setReg x (s.readV x &&& s.readV y) s

/-- 8XY3 (R155). -/
def execXor (x y : Reg) (s : State) : Outcome := setReg x (s.readV x ^^^ s.readV y) s

/-- 8XY4: VF is the carry of the full 8-bit addition (R156). -/
def execAddReg (x y : Reg) (s : State) : Outcome :=
  setRegAndFlag x (s.readV x + s.readV y) (addCarry (s.readV x) (s.readV y)) s

/-- 8XY5: VF is 1 when no borrow occurred (R157). -/
def execSub (x y : Reg) (s : State) : Outcome :=
  setRegAndFlag x (s.readV x - s.readV y) (noBorrow (s.readV x) (s.readV y)) s

/-- 8XY6: logical shift right by one (R158). -/
def execShr (x y : Reg) (s : State) : Outcome :=
  setRegAndFlag x (s.shiftSource x y >>> 1) (shiftedOutRight (s.shiftSource x y)) s

/-- 8XY7: the destination is still V[x] (R159). -/
def execSubn (x y : Reg) (s : State) : Outcome :=
  setRegAndFlag x (s.readV y - s.readV x) (noBorrow (s.readV y) (s.readV x)) s

/-- 8XYE: shift left by one (R160). -/
def execShl (x y : Reg) (s : State) : Outcome :=
  setRegAndFlag x (s.shiftSource x y <<< 1) (shiftedOutLeft (s.shiftSource x y)) s

/-- CXNN: the random byte is an input of the step (R161, 10_state.md R43). -/
def execRnd (x : Reg) (kk : Byte) (s : State) : Outcome := setReg x (s.input.rand &&& kk) s

end Sys2Proof.Machine
end

