-- ==== Sys2Proof/Machine/Control.lean ====
section
/-! DEFINITION. Control transfer: 00EE, 1NNN, 2NNN, BNNN (spec/40_cycle_and_flow.md R125 to R128). -/

namespace Sys2Proof.Machine

/-- 00EE: return to the popped address; `StackUnderflow` when the stack is empty (R125). -/
def execRet (s : State) : Outcome :=
  match popStack s.stack with
  | none => raise .stackUnderflow
  | some (t, rest) => complete (.set t.toNat) (s.setStack rest)

/-- 1NNN: jump (R126). -/
def execJp (addr : Addr) (s : State) : Outcome := complete (.set addr.toNat) s

/-- 2NNN: push `NextPC`, jump; `StackOverflow` when 12 entries are there (R127). -/
def execCall (addr : Addr) (s : State) : Outcome :=
  match pushStack s.stack s.nextPc with
  | none => raise .stackOverflow
  | some l => complete (.set addr.toNat) (s.setStack l)

/-- BNNN: jump to `addr` plus a register (R128). -/
def execJpV0 (addr : Addr) (x : Reg) (s : State) : Outcome :=
  complete (.set (addr.toNat + (s.jumpOffset x).toNat)) s

end Sys2Proof.Machine
end

