-- ==== Sys2Proof/Machine/IndexMemory.lean ====
section
/-! DEFINITION. Address register and memory transfer: ANNN, FX1E, FX29, FX33, FX55, FX65
(spec/43_index_memory.md). A transfer never changes I (R176). -/

namespace Sys2Proof.Machine

/-- Store bytes at I and go on; all of them or, past the end of memory, none (20_memory.md R68). -/
def storeAtI (bs : List Byte) (s : State) : Outcome :=
  withRange s.i.toNat bs.length (complete .next (s.setMem (s.mem.writeBytes s.i.toNat bs)))

/-- ANNN (R170). -/
def execLdI (addr : Addr) (s : State) : Outcome := complete .next (s.writeI addr.toNat)

/-- FX1E: VF is written, with 0 or 1, only when I_OVERFLOW_SETS_VF (R171, D7, log 7). -/
def execAddI (x : Reg) (s : State) : Outcome :=
  let sum := s.i.toNat + (s.readV x).toNat
  let f := flagByte (indexOverflow s.i (s.readV x))
  complete .next (if s.config.iOverflowSetsVf then (s.writeI sum).writeV VF f else s.writeI sum)

/-- FX29 (R172). -/
def execLdF (x : Reg) (s : State) : Outcome := complete .next (s.writeI (s.glyphAddress x))

/-- FX33: the decimal digits of V[x] at I, I+1, I+2 (R173). -/
def execLdB (x : Reg) (s : State) : Outcome := storeAtI (bcdDigits (s.readV x)) s

/-- FX55: V[0] to V[x] at I upward (R174). -/
def execStRegs (x : Reg) (s : State) : Outcome := storeAtI (s.regsUpTo x) s

/-- FX65: V[0] to V[x] from I upward (R175). -/
def execLdRegs (x : Reg) (s : State) : Outcome :=
  withRange s.i.toNat (x.val + 1) (complete .next (s.setRegs (fillRegs s.v 0 (s.bytesAtI (x.val + 1)))))

end Sys2Proof.Machine
end

