-- ==== Sys2Proof/Machine/Io.lean ====
section
/-! DEFINITION. Display, keyboard wait and counters: 00E0, DXYN, FX07, FX0A, FX15, FX18 (spec/44_io_timers.md). -/

namespace Sys2Proof.Machine

/-- 00E0: one clear request (R180). -/
def execCls (s : State) : Outcome := complete .next (s.emit .clear)

/-- DXYN: read all `n` rows at I, send one request with the raw coordinates, and put the display's answer in VF
(R181). With `n = 0` nothing is read and an empty request is sent. -/
def execDrw (x y : Reg) (n : Rows) (s : State) : Outcome :=
  withRange s.i.toNat n.val
    (complete .next
      ((s.emit (.draw (s.readV x) (s.readV y) (s.bytesAtI n.val))).writeV VF (flagByte s.input.collision)))

/-- FX07 (R182). -/
def execLdVxDt (x : Reg) (s : State) : Outcome := complete .next (s.writeV x s.dt)

/-- FX0A: wait until a key press is observed, then V[x] is the key number (R183). -/
def execLdVxK (x : Reg) (s : State) : Outcome :=
  .next (match s.input.keyPress with
    | none => s.waiting
    | some k => (s.writeV x (BitVec.ofNat 8 k.val)).completed .next)

/-- FX15 (R184). -/
def execLdDtVx (x : Reg) (s : State) : Outcome := complete .next (s.writeDelay (s.readV x))

/-- FX18 (R185). -/
def execLdStVx (x : Reg) (s : State) : Outcome := complete .next (s.writeSound (s.readV x))

end Sys2Proof.Machine
end

