-- ==== Sys2Proof/Machine/Skips.lean ====
section
/-! DEFINITION. The conditional skips: 3XNN, 4XNN, 5XY0, 9XY0, EX9E, EXA1 (spec/41_skips.md). -/

namespace Sys2Proof.Machine

/-- Skip the next instruction when the condition holds; nothing else changes (R146). -/
def skipIf (c : Bool) (s : State) : Outcome := complete (if c then .skip else .next) s

/-- 3XNN (R140). -/
def execSeImm (x : Reg) (kk : Byte) (s : State) : Outcome := skipIf (s.readV x == kk) s

/-- 4XNN (R141). -/
def execSneImm (x : Reg) (kk : Byte) (s : State) : Outcome := skipIf (s.readV x != kk) s

/-- 5XY0 (R142). -/
def execSeReg (x y : Reg) (s : State) : Outcome := skipIf (s.readV x == s.readV y) s

/-- 9XY0 (R143). -/
def execSneReg (x y : Reg) (s : State) : Outcome := skipIf (s.readV x != s.readV y) s

/-- EX9E: the keyboard is asked about the low nibble of V[x] (R144). -/
def execSkp (x : Reg) (s : State) : Outcome := skipIf (s.keyIsDown (s.keyNumber x)) s

/-- EXA1 (R145). -/
def execSknp (x : Reg) (s : State) : Outcome := skipIf (!s.keyIsDown (s.keyNumber x)) s

end Sys2Proof.Machine
end

