-- ==== Sys2Proof/Machine/Step.lean ====
section
/-! DEFINITION. One step of the machine (spec/40_cycle_and_flow.md R120) and the placing of an instruction where it is
fetched. -/

namespace Sys2Proof.Machine

/-- One `step`: the clock's ticks since the last step, then fetch, decode and execute (40_cycle_and_flow.md R120). A
failed fetch and an Unknown opcode are errors (30_encoding.md R91, R101). -/
def step (s : State) : Host.Outcome State Fault Refusal :=
  match fetch s.beginStep with
  | .error e => raise e
  | .ok w =>
    match decode w with
    | .unknown op => raise (.unknownInstruction op)
    | .instr i => closeStep (exec i s.beginStep)

/-- The state with the opcode `w` (bits from `nbits` up 0) stored at PC and PC+1, where the next step fetches it. Only
the opcode's two cells change. At PC = 4095 no opcode can be fetched (30_encoding.md R91) and nothing is stored. It
stands for the host's `load` (70_reset_and_hazards.md R241, log 20). -/
def State.withFetchWord (s : State) (nbits w : Nat) : State :=
  s.setMem (s.mem.placeOpcode s.pc.toNat (BitVec.ofNat 16 (w % 2 ^ nbits)))

end Sys2Proof.Machine
end

