-- ==== Sys2Proof/Machine/HostOps.lean ====
section
/-! DEFINITION. The operations the core offers the host, the image loader and the clock, beside `step`
(spec/10_state.md R41). -/

namespace Sys2Proof.Machine

/-- The ordinal of an error kind, its place in the source's list (60_exceptions.md R200, D23, log 24). -/
def Fault.ordinal : Fault → Nat
  | .outOfBounds _ => 1
  | .imageTooLarge _ _ => 2
  | .stackOverflow => 3
  | .stackUnderflow => 4
  | .unknownInstruction _ => 5

/-- A host operation that changes the core has a meaning only before the first step (93 U21, D27, log 19). -/
def beforeRunning (s : State) (k : Outcome) : Outcome :=
  match s.status with
  | .notStepped => k
  | .ok => .refused .hostMutationWhileRunning
  | .waitingForKey => .refused .hostMutationWhileRunning

/-- `load(image, offset)`: all bytes or, when they do not fit, none (20_memory.md R64). -/
def load (image : List Byte) (offset : Nat) (s : State) : Outcome :=
  beforeRunning s
    (if memSize < offset + image.length then raise (.imageTooLarge offset image.length)
     else .next (s.setMem (s.mem.writeBytes offset image)))

/-- Install the glyph table: `load(FONT_IMAGE, SPRITE_TABLE_ADDRESS)`, the host's duty (70_reset_and_hazards.md R241,
R243). -/
def loadFont (s : State) : Outcome := load s.config.fontImage.toList s.config.spriteTableAddress.toNat s

/-- `read(address)` (20_memory.md R62). -/
def hostRead (a : Nat) (s : State) : Except Fault Byte := memRead s.mem a

/-- `write(address, byte)` (20_memory.md R63). -/
def hostWrite (a : Nat) (b : Byte) (s : State) : Outcome :=
  beforeRunning s
    (match memWrite s.mem a b with
     | .ok m => .next (s.setMem m)
     | .error e => raise e)

/-- `size()` (20_memory.md R65). -/
def hostSize (_ : State) : Nat := memSize

/-- `read_register(index)`: fails when `index > 15` (10_state.md R24). -/
def readRegister (k : Nat) (s : State) : Except Fault Byte :=
  if h : k < 16 then .ok (s.readV ⟨k, h⟩) else .error (.outOfBounds k)

/-- `write_register(index, byte)`: fails when `index > 15` (10_state.md R24). -/
def writeRegister (k : Nat) (b : Byte) (s : State) : Outcome :=
  beforeRunning s (if h : k < 16 then .next (s.writeV ⟨k, h⟩ b) else raise (.outOfBounds k))

/-- `read_I` (10_state.md R26). -/
def hostReadI (s : State) : Word := s.i

/-- `write_I(value)`, masked to 12 bits (10_state.md R26). -/
def hostWriteI (w : Word) (s : State) : Outcome := beforeRunning s (.next (s.writeI w.toNat))

/-- `pc` (10_state.md R41). -/
def hostPc (s : State) : Word := s.pc

/-- `set_pc(value)`, masked to 12 bits (10_state.md R27). -/
def hostSetPc (w : Word) (s : State) : Outcome := beforeRunning s (.next (s.setPc (mask12 w.toNat)))

/-- `read_delay()` (10_state.md R41). -/
def readDelay (s : State) : Byte := s.dt

/-- `read_sound()` (10_state.md R31). -/
def readSound (s : State) : Byte := s.st

/-- `write_delay(value)`, clamped to [0,255] (10_state.md R32). R41 leaves the argument's domain open: that it is every
integer is the model's choice. DESIGN CHOICE: log 25. -/
def hostWriteDelay (n : Int) (s : State) : Outcome := beforeRunning s (.next (s.writeDelay (clampByte n)))

/-- `write_sound(value)`, clamped to [0,255] (10_state.md R32). R41 leaves the argument's domain open: that it is every
integer is the model's choice. DESIGN CHOICE: log 25. -/
def hostWriteSound (n : Int) (s : State) : Outcome := beforeRunning s (.next (s.writeSound (clampByte n)))

end Sys2Proof.Machine
end

