-- ==== Sys2Proof/Safety.lean ====
section
/-! DEFINITION. The terms claims are stated in: the invariant of spec/10_state.md R49, the reachable states, frames,
and which instruction may touch what. -/

namespace Sys2Proof.Machine

/-- The invariants of 10_state.md R49. Clause 2 is the type of V, DT and ST; clause 4 is the memory's canonical form:
every listed cell lies below 4096 and is a byte. -/
abbrev State.Inv (s : State) : Prop :=
  s.pc.toNat < 4096 ∧ s.i.toNat < 4096 ∧ s.stack.length ≤ 12 ∧ (∀ w ∈ s.stack, w.toNat < 4096) ∧ s.mem.wf = true

/-- "Reachable from reset by `load`, `step` and `tick_timers`" (10_state.md R49), for any configuration and any
inputs of the coming steps. -/
inductive Reachable : State → Prop where
  | reset (c : Config) (ins : List StepInput) : Reachable { State.resetWith c with inputs := ins }
  | load (s t : State) (image : List Byte) (offset : Nat) :
      Reachable s → load image offset s = .next t → Reachable t
  | step (s t : State) : Reachable s → step s = .next t → Reachable t
  | tick (s : State) : Reachable s → Reachable s.tickTimers

/-- A run of `k` steps is safe when it meets no error. What ends a run is the model's own definition
(70_reset_and_hazards.md R250, 92_eei_decisions.md D25): here it is a given number of steps. DESIGN CHOICE: log 26. -/
def SafeRun (k : Nat) (s : State) : Prop := ∃ t, Host.Core.run Sys2Proof.core k s = .next t

/-- The meanings of a list of instructions, one after another, stopping at the first that does not go on. -/
def execList : List Instr → State → Outcome
  | [], s => .next s
  | i :: is, s =>
    match exec i s with
    | .next t => execList is t
    | .fault e => .fault e
    | .refused r => .refused r

/-- The pieces of the state, down to one register and one byte of memory. -/
inductive Component where
  | v (x : Reg)
  | i
  | pc
  | dt
  | st
  | stack
  | mem (a : Nat)
  | config
  | inputs
  | inputCount
  | status
  | requests
  deriving DecidableEq, Repr

/-- The component holds the same in both states. -/
def Component.Same (s t : State) : Component → Prop
  | .v x => t.readV x = s.readV x
  | .i => t.i = s.i
  | .pc => t.pc = s.pc
  | .dt => t.dt = s.dt
  | .st => t.st = s.st
  | .stack => t.stack = s.stack
  | .mem a => t.mem.read a = s.mem.read a
  | .config => t.config = s.config
  | .inputs => t.inputs = s.inputs
  | .inputCount => t.inputCount = s.inputCount
  | .status => t.status = s.status
  | .requests => t.requests = s.requests

/-- The frame: every component outside the list holds in `t` what it held in `s`. -/
def OnlyChanges (s t : State) (cs : List Component) : Prop := ∀ c, c ∉ cs → c.Same s t

/-- The components of `n` bytes of memory from `a` upward. -/
def memRange (a n : Nat) : List Component := (List.range' a n).map .mem

/-- V[0] to V[x]. -/
def regRange (x : Reg) : List Component := ((List.finRange 16).filter (· ≤ x)).map .v

/-- The instructions that may skip (40_cycle_and_flow.md R122). -/
def isSkip : Instr → Bool
  | .seImm _ _ | .sneImm _ _ | .seReg _ _ | .sneReg _ _ | .skp _ | .sknp _ => true
  | _ => false

/-- The condition of a skip holds (41_skips.md R140 to R145; the key is the low nibble of V[x], D16, log 12). -/
def skipHolds (i : Instr) (s : State) : Bool :=
  match i with
  | .seImm x kk => s.readV x == kk
  | .sneImm x kk => s.readV x != kk
  | .seReg x y => s.readV x == s.readV y
  | .sneReg x y => s.readV x != s.readV y
  | .skp x => s.input.keysDown.getLsbD ((s.readV x).toNat % 16)
  | .sknp x => !s.input.keysDown.getLsbD ((s.readV x).toNat % 16)
  | _ => false

/-- PC after a step with status `Ok`, row by row of the table of 10_state.md R29. The popped value is below 4096 in every
state a run reaches (R36); it is stored as `pc <-` stores it, modulo 4096 (R27). -/
def tabledPc (i : Instr) (s : State) : Nat :=
  match i with
  | .jp addr => addr.toNat
  | .call addr => addr.toNat
  | .jpV0 addr x => (addr.toNat + (if s.config.jumpOffsetUsesVx then s.readV x else s.readV 0).toNat) % 4096
  | .ret => (s.stack.headD 0#16).toNat % 4096
  | _ => if skipHolds i s then (s.pc.toNat + 4) % 4096 else (s.pc.toNat + 2) % 4096

/-- The byte the instruction stores at I + k, if it stores one there (43_index_memory.md R173, R174). -/
def storedByte (i : Instr) (s : State) (k : Nat) : Option Byte :=
  match i with
  | .ldB x => [BitVec.ofNat 8 ((s.readV x).toNat / 100), BitVec.ofNat 8 ((s.readV x).toNat / 10 % 10),
      BitVec.ofNat 8 ((s.readV x).toNat % 10)][k]?
  | .stRegs x => if h : k < 16 then (if k ≤ x.val then some (s.readV ⟨k, h⟩) else none) else none
  | _ => none

/-- What the cell at `a` holds after the instruction: the byte stored there, or what it held before. -/
def byteAfter (i : Instr) (s : State) (a : Nat) : Byte :=
  if s.i.toNat ≤ a then (storedByte i s (a - s.i.toNat)).getD (s.mem.read a) else s.mem.read a

/-- The instructions that set PC (40_cycle_and_flow.md R122). -/
def setsPc : Instr → Bool
  | .ret | .jp _ | .call _ | .jpV0 _ _ => true
  | _ => false

/-- The instructions that write VF as a flag (10_state.md R22). -/
def setsFlag (c : Config) : Instr → Bool
  | .addReg _ _ | .sub _ _ | .shr _ _ | .subn _ _ | .shl _ _ | .drw _ _ _ => true
  | .addI _ => c.iOverflowSetsVf
  | _ => false

/-- The instruction writes V[r] as an ordinary register (10_state.md R23, the columns "V[x]" and "other V"). -/
def writesReg : Instr → Reg → Bool
  | .ldImm x _, r | .addImm x _, r | .rnd x _, r => r == x
  | .ldReg x _, r | .or x _, r | .and x _, r | .xor x _, r => r == x
  | .addReg x _, r | .sub x _, r | .shr x _, r | .subn x _, r | .shl x _, r => r == x
  | .ldVxDt x, r | .ldVxK x, r => r == x
  | .ldRegs x, r => decide (r ≤ x)
  | _, _ => false

/-- The same state before other inputs. -/
def State.withInputs (s : State) (ins : List StepInput) (n : Nat) : State := { s with inputs := ins, inputCount := n }

/-- The same outcome with other inputs left for the steps to come. -/
def withInputsAfter (ins : List StepInput) (n : Nat) : Outcome → Outcome
  | .next t => .next (t.withInputs ins n)
  | .fault e => .fault e
  | .refused r => .refused r

/-- Two inputs agree on what the instruction uses (10_state.md R42, column "used by"). -/
def AgreeOn (i : Instr) (e e' : StepInput) : Prop :=
  match i with
  | .rnd _ _ => e.rand = e'.rand
  | .skp _ | .sknp _ => e.keysDown = e'.keysDown
  | .ldVxK _ => e.keyPress = e'.keyPress
  | .drw _ _ _ => e.collision = e'.collision
  | _ => True

end Sys2Proof.Machine
end

