-- ==== Sys2Proof/Certificates/Slice0/Obligations.lean ====
section
/-! DEFINITION. The statements for the provers, each read from the rules of spec/ its docstring names. -/

open Sys2Proof Sys2Proof.Machine

/-! ### Encoding -/

/-- Opcodes written out from the rows of 30_encoding.md R95 decode to their instruction, at least one for every
family; 95_test_vectors.md 2.8. That 0x5341 decodes to Unknown is the exact match of decision D15 (log 17). -/
def Obligations.SpecOpcodesDecode : Prop :=
  decode 0x00E0#16 = .instr .cls ∧ decode 0x00EE#16 = .instr .ret ∧ decode 0x1FFF#16 = .instr (.jp 0xFFF#12) ∧
  decode 0x2000#16 = .instr (.call 0x000#12) ∧ decode 0xB123#16 = .instr (.jpV0 0x123#12 1) ∧
  decode 0x3AFF#16 = .instr (.seImm 0xA 0xFF#8) ∧ decode 0x5AB0#16 = .instr (.seReg 0xA 0xB) ∧
  decode 0xEFA1#16 = .instr (.sknp 0xF) ∧ decode 0x8FE6#16 = .instr (.shr 0xF 0xE) ∧
  decode 0x8ABE#16 = .instr (.shl 0xA 0xB) ∧ decode 0xA300#16 = .instr (.ldI 0x300#12) ∧
  decode 0xFF55#16 = .instr (.stRegs 0xF) ∧ decode 0xF065#16 = .instr (.ldRegs 0) ∧
  decode 0xD00F#16 = .instr (.drw 0 0 0xF) ∧ decode 0xF50A#16 = .instr (.ldVxK 5) ∧
  decode 0x5341#16 = .unknown 0x5341#16 ∧ decode 0x0000#16 = .unknown 0x0000#16

/-- Decoding the opcode of a well-formed instruction gives it back, with every operand at every value
(30_encoding.md R95, R106). -/
def Obligations.DecodeOfEncodeIsIdentity : Prop :=
  ∀ i : Instr, i.WellFormed = true → decode (encode i) = .instr i

/-- No bit of an opcode is dropped: an opcode that decodes to an instruction is that instruction's opcode, and the
instruction is well formed (30_encoding.md R95, R106). -/
def Obligations.EncodeOfDecodeIsIdentity : Prop :=
  ∀ (w : Word) (i : Instr), decode w = .instr i → i.WellFormed = true ∧ encode i = w

/-- The decoding procedure (R96) agrees with the opcode map (R95): an opcode a row selects decodes to that row's
instruction, an opcode no row selects is Unknown, and no opcode is selected by two rows. That an opcode near a row, such as
5XYn with `n` other than 0, is selected by none is the exact match of decision D15 (log 17). -/
def Obligations.DecodeAgreesWithOpcodeMap : Prop :=
  (∀ (w : Word), ∀ r ∈ opcodeRows, r.Selects w → ∃ i, decode w = .instr i ∧ i.mnemonic = r.mnemonic) ∧
  (∀ w : Word, (∀ r ∈ opcodeRows, ¬ r.Selects w) → decode w = .unknown w) ∧
  (∀ (w : Word), ∀ r ∈ opcodeRows, ∀ r' ∈ opcodeRows, r.Selects w → r'.Selects w → r = r')

/-- An opcode no row selects decodes to Unknown and a step that fetches it ends with `Error(UnknownInstruction, opcode)`
(30_encoding.md R101); every opcode of group 0 but 00E0 and 00EE is such a one. That the error is a fault and ends the
run, with no successor state, is the model's choice (D26, log 5); that 5XYn and 9XYn with `n` other than 0 are outside
the table is decision D15 (log 17). -/
def Obligations.UnknownOpcodeIsReported : Prop :=
  (∀ (s : State) (w : Word), fetch s.beginStep = .ok w → (∀ r ∈ opcodeRows, ¬ r.Selects w) →
    decode w = .unknown w ∧ step s = .fault (.unknownInstruction w)) ∧
  (∀ w : Word, w.toNat < 0x1000 → w ≠ 0x00E0#16 → w ≠ 0x00EE#16 → ∀ r ∈ opcodeRows, ¬ r.Selects w)

/-! ### Memory and the host's operations -/

/-- R62 and R63: below 4096 a write succeeds, the cell then reads what was written and no other cell changes; from 4096
on, read and write fail with `OutOfBounds` of the address. The premise is the canonical form of a memory (part of
the invariant). -/
def Obligations.MemoryWriteThenRead : Prop :=
  ∀ (m : Memory) (a : Nat) (b : Byte), m.wf = true →
    (a < 4096 → memRead m a = .ok (m.read a) ∧
      ∃ m', memWrite m a b = .ok m' ∧ m'.wf = true ∧ memRead m' a = .ok b ∧ ∀ c, c ≠ a → m'.read c = m.read c) ∧
    (4096 ≤ a → memRead m a = .error (.outOfBounds a) ∧ memWrite m a b = .error (.outOfBounds a))

/-- Two memories in canonical form that read the same everywhere are the same data (the model's representation of
20_memory.md R60, log 23). -/
def Obligations.CanonicalMemoryIsDeterminedByReads : Prop :=
  ∀ m m' : Memory, m.wf = true → m'.wf = true → (∀ a, a < 4096 → m.read a = m'.read a) → m = m'

/-- `load` (20_memory.md R64): before the first step it stores the image byte for byte and changes nothing else, again
with the same result when repeated; an image that does not fit is rejected whole. That a later `load` has no
meaning is decision D27 (log 19). -/
def Obligations.LoadStoresImageExactly : Prop :=
  ∀ (s : State) (image : List Byte) (offset : Nat), s.mem.wf = true →
    (s.status = .notStepped → offset + image.length ≤ 4096 →
      ∃ t, load image offset s = .next t ∧
        (∀ k, k < image.length → t.mem.read (offset + k) = image.getD k 0#8) ∧
        OnlyChanges s t (memRange offset image.length) ∧ load image offset t = .next t) ∧
    (s.status = .notStepped → 4096 < offset + image.length →
      load image offset s = .fault (.imageTooLarge offset image.length)) ∧
    (s.status ≠ .notStepped → load image offset s = .refused .hostMutationWhileRunning)

/-- A store is seen by the next fetch (20_memory.md R77): after any instruction, the opcode fetched where PC stands is made
of the two bytes there, each of them the one FX33 or FX55 has just stored at its address (a digit of V[x], or V[k] at
I+k) or, where nothing was stored, what the cell held before. So it holds with both, one or none of the two bytes
stored. -/
def Obligations.StoredRegistersAreFetched : Prop :=
  ∀ (i : Instr) (s t : State), s.mem.wf = true → exec i s = .next t → t.pc.toNat + 1 < 4096 →
    fetch t = .ok (opcodeOfBytes (byteAfter i s t.pc.toNat) (byteAfter i s (t.pc.toNat + 1)))

/-- The host's accessors check, mask and clamp (10_state.md R24, R26, R27, R32): a register index above 15 fails with
`OutOfBounds` of the index; I and PC are stored modulo 4096, DT and ST clamped to 0..255. That they have a meaning only
before the first step is U21 (log 19); the domains of their arguments are the model's choice (log 25). -/
def Obligations.HostAccessorsCheckAndMask : Prop :=
  ∀ (s : State) (k : Nat) (b : Byte) (w : Word) (n : Int), s.status = .notStepped →
    (∀ h : k < 16, readRegister k s = .ok (s.readV ⟨k, h⟩) ∧
      ∃ t, writeRegister k b s = .next t ∧ readRegister k t = .ok b ∧ OnlyChanges s t [.v ⟨k, h⟩]) ∧
    (16 ≤ k → readRegister k s = .error (.outOfBounds k) ∧ writeRegister k b s = .fault (.outOfBounds k)) ∧
    (∃ t, hostWriteI w s = .next t ∧ (hostReadI t).toNat = w.toNat % 4096 ∧ OnlyChanges s t [.i]) ∧
    (∃ t, hostSetPc w s = .next t ∧ (hostPc t).toNat = w.toNat % 4096 ∧ OnlyChanges s t [.pc]) ∧
    (∃ t, hostWriteDelay n s = .next t ∧ ((readDelay t).toNat : Int) = max 0 (min n 255) ∧ OnlyChanges s t [.dt]) ∧
    (∃ t, hostWriteSound n s = .next t ∧ ((readSound t).toNat : Int) = max 0 (min n 255) ∧ OnlyChanges s t [.st])

/-! ### Reset, fetch and the step -/

/-- The state after `reset(config)` (10_state.md R50). Memory zero is the source's word; the zero registers and counters
and the empty stack are the spec's own choice (D2, log 2), the outputs the model's (log 18). -/
def Obligations.ResetHoldsResetValues : Prop :=
  ∀ c : Config,
    (∀ a, (State.resetWith c).mem.read a = 0#8) ∧ (∀ x, (State.resetWith c).readV x = 0#8) ∧
    (State.resetWith c).i = 0#16 ∧ (State.resetWith c).pc.toNat = c.entryAddress.toNat % 4096 ∧
    (State.resetWith c).dt = 0#8 ∧ (State.resetWith c).st = 0#8 ∧ (State.resetWith c).stack = [] ∧
    (State.resetWith c).config = c ∧ (State.resetWith c).requests = []

/-- The invariants of 10_state.md R49 hold after reset with any configuration, and of `State.reset`. -/
def Obligations.ResetSatisfiesInvariant : Prop := (∀ c : Config, (State.resetWith c).Inv) ∧ State.reset.Inv

/-- Every step keeps the invariants of 10_state.md R49, from every state that has them. -/
def Obligations.StepKeepsInvariant : Prop := ∀ s t : State, s.Inv → step s = .next t → t.Inv

/-- The invariants of 10_state.md R49 hold "in every state reachable from reset by `load`, `step` and `tick_timers`".
Clause 2 (bytes) is the registers' type; every memory cell is a byte and no cell exists past 4095. `Inv` adds the
canonical form of memory, which is the model's representation (log 23), not R49's. -/
def Obligations.ReachableStatesSatisfyInvariant : Prop :=
  ∀ s : State, Reachable s → s.Inv ∧ (∀ a, a < 4096 → ∃ b, memRead s.mem a = .ok b) ∧
    ∀ a, 4096 ≤ a → memRead s.mem a = .error (.outOfBounds a)

/-- Stepping a freshly reset core reports `UnknownInstruction` of 0x0000, or `OutOfBounds` of 4096 when the entry
address is 4095 (70_reset_and_hazards.md R242), for every configuration. That the fetch does not wrap is decision D10
(log 11). -/
def Obligations.FreshCoreReportsUnknownZero : Prop :=
  ∀ c : Config,
    (c.entryAddress.toNat % 4096 ≠ 4095 → step (State.resetWith c) = .fault (.unknownInstruction 0x0000#16)) ∧
    (c.entryAddress.toNat % 4096 = 4095 → step (State.resetWith c) = .fault (.outOfBounds 4096))

/-- The fetch is big-endian (20_memory.md R69) and does not mask PC+1: it fails exactly at PC = 4095, and then the step
ends with `OutOfBounds` of 4096 (30_encoding.md R91; that it does not wrap is decision D10, log 11). -/
def Obligations.FetchIsBigEndianAndBounded : Prop :=
  ∀ s : State, s.pc.toNat < 4096 →
    (s.pc.toNat < 4095 → ∃ w, fetch s = .ok w ∧
      w.toNat = (s.mem.read s.pc.toNat).toNat * 256 + (s.mem.read (s.pc.toNat + 1)).toNat) ∧
    (s.pc.toNat = 4095 → step s = .fault (.outOfBounds 4096))

/-- A step runs the decoded instruction (40_cycle_and_flow.md R120): where the two bytes at PC decode to `i`, the step is
`exec i` on the state whose counters the clock has lowered by the ticks of this step's input, with the input then
used up. The ticks are the model's placing of `tick_timers` (log 4). -/
def Obligations.StepRunsDecodedInstruction : Prop :=
  ∀ (s : State) (i : Instr), s.pc.toNat + 1 < 4096 →
    decode (s.mem.read s.pc.toNat ++ s.mem.read (s.pc.toNat + 1)) = .instr i →
    step s =
      (match exec i { s with dt := countDown s.dt s.input.ticks, st := countDown s.st s.input.ticks } with
       | .next t => .next { t with inputs := t.inputs.tail, inputCount := t.inputCount + 1 }
       | .fault e => .fault e
       | .refused r => .refused r)

/-- A word placed by `withFetchWord` is the next opcode fetched, and only its two cells change (log 20). -/
def Obligations.PlacedWordIsFetched : Prop :=
  ∀ (s : State) (w : Word), s.mem.wf = true → s.pc.toNat + 1 < 4096 →
    fetch (s.withFetchWord 16 w.toNat) = .ok w ∧
    OnlyChanges s (s.withFetchWord 16 w.toNat) (memRange s.pc.toNat 2)

/-- `NextPC` and `SkipPC` wrap modulo 4096 (40_cycle_and_flow.md R123; the wrap is decision D9, log 10). -/
def Obligations.PcAdvanceWraps : Prop :=
  ∀ s : State, s.nextPc.toNat = (s.pc.toNat + 2) % 4096 ∧ s.skipPc.toNat = (s.pc.toNat + 4) % 4096

/-! ### The clock -/

/-- `tick_timers` (60_exceptions.md R214): each counter down by one, floored at zero, and nothing else changes. -/
def Obligations.TickLowersBothCounters : Prop :=
  ∀ s : State, s.tickTimers.dt.toNat = s.dt.toNat - 1 ∧ s.tickTimers.st.toNat = s.st.toNat - 1 ∧
    OnlyChanges s s.tickTimers [.dt, .st]

/-- The ticks a step begins with are that many calls of `tick_timers` (60_exceptions.md R214, R215; log 4). -/
def Obligations.BatchOfTicksIsRepeatedTick : Prop :=
  ∀ (n : Nat) (s : State), s.tickMany n = State.tickTimers^[n] s

/-! ### Whole-machine rules -/

/-- No step, `load` or tick changes the configuration: the parameters are constant from reset onward (00_scope.md R6). -/
def Obligations.ConfigurationNeverChanges : Prop :=
  (∀ s t : State, step s = .next t → t.config = s.config) ∧ (∀ s : State, s.tickTimers.config = s.config) ∧
  (∀ (s t : State) (image : List Byte) (offset : Nat), load image offset s = .next t → t.config = s.config)

/-- Only FX33 and FX55 change memory, and only the bytes they store to (20_memory.md R61, R66). -/
def Obligations.OnlyStoringInstructionsChangeMemory : Prop :=
  ∀ (i : Instr) (s t : State) (a : Nat), s.mem.wf = true → exec i s = .next t → t.mem.read a ≠ s.mem.read a →
    (∃ x, i = .ldB x ∧ s.i.toNat ≤ a ∧ a ≤ s.i.toNat + 2) ∨
    (∃ x : Reg, i = .stRegs x ∧ s.i.toNat ≤ a ∧ a ≤ s.i.toNat + x.val)

/-- Only 2NNN pushes and only 00EE pops (10_state.md R33); inside a step nothing else touches the stack, and its depth
never exceeds 12. -/
def Obligations.OnlyCallAndReturnTouchStack : Prop :=
  ∀ (i : Instr) (s t : State), exec i s = .next t →
    t.stack = s.stack ∨ (∃ addr, i = .call addr ∧ t.stack = s.nextPc :: s.stack ∧ t.stack.length ≤ 12) ∨
    (i = .ret ∧ ∃ w, s.stack = w :: t.stack)

/-- I is written by ANNN, FX1E and FX29 and by nothing else (10_state.md R25); the transfers leave it (D19, log 15). -/
def Obligations.OnlyThreeInstructionsWriteI : Prop :=
  ∀ (i : Instr) (s t : State), exec i s = .next t →
    t.i = s.i ∨ (∃ addr, i = .ldI addr) ∨ (∃ x, i = .addI x) ∨ (∃ x, i = .ldF x)

/-- Inside a step DT is written by FX15 alone and ST by FX18 alone, and only the ticks lower them (10_state.md R30 to R32,
40_cycle_and_flow.md R120). -/
def Obligations.CountersAreWrittenBySetInstructionsOnly : Prop :=
  ∀ (i : Instr) (s t : State), exec i s = .next t →
    (t.dt = s.dt ∨ ∃ x, i = .ldDtVx x ∧ t.dt = s.readV x) ∧ (t.st = s.st ∨ ∃ x, i = .ldStVx x ∧ t.st = s.readV x)

/-- A general register changes only in an instruction that writes it as its destination or, for VF, as a flag; and a flag
instruction leaves exactly 0 or 1 in VF (10_state.md R22, R23). That the flag remains for `x = 15` is decision D13
(log 8), that FX1E writes 0 without overflow decision D7 (log 7). -/
def Obligations.RegistersChangeOnlyAsTabled : Prop :=
  ∀ (i : Instr) (s t : State), exec i s = .next t →
    (∀ r, t.readV r ≠ s.readV r → writesReg i r = true ∨ (r = VF ∧ setsFlag s.config i = true)) ∧
    (setsFlag s.config i = true → t.readV VF = 0#8 ∨ t.readV VF = 1#8)

/-- PC after a meaning is the value of the table of 10_state.md R29 (40_cycle_and_flow.md R122), for every instruction: with
status `Ok` the target of 1NNN, 2NNN, BNNN and 00EE, PC + 4 for a skip whose condition holds, and PC + 2 in every other
case; unchanged in the wait of FX0A with no key press. The wrap is decision D9 (log 10), the wait without a latch D17
(log 13), the key number D16 (log 12), BNNN with JUMP_OFFSET_USES_VX D8 (log 6). -/
def Obligations.PcChangesOnlyAsTabled : Prop :=
  ∀ (i : Instr) (s t : State), exec i s = .next t →
    (t.status = .waitingForKey ∧ (∃ x, i = .ldVxK x) ∧ s.input.keyPress = none ∧ t.pc = s.pc) ∨
    (t.status = .ok ∧ t.pc.toNat = tabledPc i s)

/-- Each instruction has at most one error, and only these six have any (60_exceptions.md R207, R201 to R203). -/
def Obligations.EachInstructionHasItsOwnError : Prop :=
  ∀ (i : Instr) (s : State) (e : Fault), exec i s = .fault e →
    (i = .ret ∧ e = .stackUnderflow ∧ s.stack = []) ∨
    (∃ addr, i = .call addr ∧ e = .stackOverflow ∧ 12 ≤ s.stack.length) ∨
    (∃ a, e = .outOfBounds a ∧ 4096 ≤ a ∧
      ((∃ x y n, i = .drw x y n) ∨ (∃ x, i = .ldB x) ∨ (∃ x, i = .stRegs x) ∨ (∃ x, i = .ldRegs x)))

/-- No instruction is refused, and a step never is: one mode, every instruction may run (60_exceptions.md R213). -/
def Obligations.NoInstructionIsRefused : Prop :=
  (∀ (i : Instr) (s : State) (r : Refusal), exec i s ≠ .refused r) ∧ (∀ (s : State) (r : Refusal), step s ≠ .refused r)

/-- An error is not a matter of the inputs or of the clock: the same step fails the same way whatever the inputs are and
however often the clock has ticked (60_exceptions.md R212). An error is a fault of the model (D26, log 5), and the ticks
before a step are its placing of `tick_timers` (log 4). -/
def Obligations.ErrorsDoNotDependOnInputs : Prop :=
  ∀ (s : State) (e : Fault) (ins : List StepInput) (n k : Nat), step s = .fault e →
    step ((s.withInputs ins n).tickMany k) = .fault e

/-- "An input an instruction does not use has no effect on that step" (10_state.md R42): two runs of one instruction
whose inputs agree on what it uses give the same outcome, but for the inputs themselves. -/
def Obligations.UnusedInputsHaveNoEffect : Prop :=
  ∀ (i : Instr) (s : State) (ins : List StepInput) (n : Nat), AgreeOn i s.input (s.withInputs ins n).input →
    exec i (s.withInputs ins n) = withInputsAfter ins n (exec i s)

/-- A step that waits for a key changes only the counters the clock lowers (60_exceptions.md R224, 44_io_timers.md R183),
beside the model's own record of status and inputs; its opcode is FX0A and no key press was there. The wait itself changes
nothing (40_cycle_and_flow.md R121, R183), and it has no latch (decision D17, log 13); that the step also shows the clock's
ticks before it is the model's placing of `tick_timers`, read from 60_exceptions.md R215 (log 4). -/
def Obligations.WaitingStepKeepsTheCore : Prop :=
  ∀ s t : State, step s = .next t → t.status = .waitingForKey →
    (∃ x, fetch s = .ok (wordX 0xF00A x)) ∧ s.input.keyPress = none ∧
    t.dt.toNat = s.dt.toNat - s.input.ticks ∧ t.st.toNat = s.st.toNat - s.input.ticks ∧
    OnlyChanges s t [.dt, .st, .status, .inputs, .inputCount]

/-! ### Control transfer -/

/-- R125: 00EE goes to the popped address with no further advance and removes it; with an empty stack it reports
`StackUnderflow`. -/
def Obligations.ReturnPopsOrUnderflows : Prop :=
  decode 0x00EE#16 = .instr .ret ∧
  ∀ s : State,
    (∀ w rest, s.stack = w :: rest → ∃ t, exec .ret s = .next t ∧ t.pc = w &&& 0x0FFF#16 ∧ t.stack = rest ∧
      (w.toNat < 4096 → t.pc = w) ∧ t.status = .ok ∧ OnlyChanges s t [.pc, .stack, .status]) ∧
    (s.stack = [] → exec .ret s = .fault .stackUnderflow)

/-- 1NNN goes to `addr` (40_cycle_and_flow.md R126); a jump to itself leaves everything but the recorded status as it
was; after a jump to 0xFFF the next step reports `OutOfBounds` (decision D10, log 11). -/
def Obligations.JumpGoesToAddress : Prop :=
  ∀ (s : State) (addr : Addr), decode (wordNNN 0x1000 addr) = .instr (.jp addr) ∧
    ∃ t, exec (.jp addr) s = .next t ∧ t.pc = addr.setWidth 16 ∧ t.status = .ok ∧ OnlyChanges s t [.pc, .status] ∧
      (s.pc = addr.setWidth 16 → OnlyChanges s t [.status]) ∧
      (addr = 0xFFF#12 → step t = .fault (.outOfBounds 4096))

/-- R127: 2NNN pushes `NextPC` and goes to `addr`; with 12 entries it reports `StackOverflow`. -/
def Obligations.CallPushesOrOverflows : Prop :=
  ∀ (s : State) (addr : Addr), decode (wordNNN 0x2000 addr) = .instr (.call addr) ∧
    (s.stack.length < 12 → ∃ t, exec (.call addr) s = .next t ∧ t.pc = addr.setWidth 16 ∧
      t.stack = s.nextPc :: s.stack ∧ t.status = .ok ∧ OnlyChanges s t [.pc, .stack, .status]) ∧
    (s.stack.length = 12 → exec (.call addr) s = .fault .stackOverflow)

/-- BNNN (40_cycle_and_flow.md R128): `addr + V[0]` modulo 4096. With JUMP_OFFSET_USES_VX it is `addr + V[x]`, which is
general knowledge, not the source's (D8, log 6). -/
def Obligations.JumpWithOffsetAddsRegister : Prop :=
  ∀ (s : State) (addr : Addr) (x : Reg), x.val = addr.toNat / 256 →
    decode (wordNNN 0xB000 addr) = .instr (.jpV0 addr x) ∧
    ∃ t, exec (.jpV0 addr x) s = .next t ∧
      (s.config.jumpOffsetUsesVx = false → t.pc.toNat = (addr.toNat + (s.readV 0).toNat) % 4096) ∧
      (s.config.jumpOffsetUsesVx = true → t.pc.toNat = (addr.toNat + (s.readV x).toNat) % 4096) ∧
      t.status = .ok ∧ OnlyChanges s t [.pc, .status]

/-- 2NNN then 00EE "restores PC to exactly the instruction after the call" (95_test_vectors.md E6) and the stack to what
it was; at PC = 4094 that instruction stands at 0 (decision D9, log 10). -/
def Obligations.CallThenReturnRestores : Prop :=
  ∀ (s : State) (addr : Addr), s.stack.length < 12 →
    ∃ t, execList [.call addr, .ret] s = .next t ∧ t.pc = s.nextPc ∧ OnlyChanges s t [.pc, .status]

/-- From an empty stack twelve calls, to any addresses, succeed and leave depth 12; a thirteenth reports `StackOverflow`
(95_test_vectors.md E7, 70_reset_and_hazards.md R247). -/
def Obligations.TwelveCallsThenOverflow : Prop :=
  ∀ (s : State) (addrs : List Addr), s.stack = [] → addrs.length = 12 →
    ∃ t, execList (addrs.map .call) s = .next t ∧ t.stack.length = 12 ∧
      ∀ addr, exec (.call addr) t = .fault .stackOverflow

/-! ### Skips -/

/-- R140 and R141: 3XNN and 4XNN skip on equality and on difference with the immediate, change nothing but PC, and are
each other's complement. -/
def Obligations.ImmediateSkipsCompare : Prop :=
  ∀ (s : State) (x : Reg) (kk : Byte),
    decode (wordXNN 0x3000 x kk) = .instr (.seImm x kk) ∧ decode (wordXNN 0x4000 x kk) = .instr (.sneImm x kk) ∧
    (∃ t, exec (.seImm x kk) s = .next t ∧ t.pc = (if s.readV x = kk then s.skipPc else s.nextPc) ∧ t.status = .ok ∧
      OnlyChanges s t [.pc, .status]) ∧
    (∃ t, exec (.sneImm x kk) s = .next t ∧ t.pc = (if s.readV x ≠ kk then s.skipPc else s.nextPc) ∧ t.status = .ok ∧
      OnlyChanges s t [.pc, .status])

/-- 5XY0 and 9XY0 (41_skips.md R142, R143) skip on equality and on difference of two registers; a low nibble other than 0
is Unknown (decision D15, log 17). -/
def Obligations.RegisterSkipsCompare : Prop :=
  ∀ (s : State) (x y : Reg),
    decode (wordXYN 0x5000 x y 0) = .instr (.seReg x y) ∧ decode (wordXYN 0x9000 x y 0) = .instr (.sneReg x y) ∧
    (∀ n : Rows, n ≠ 0 → decode (wordXYN 0x5000 x y n) = .unknown (wordXYN 0x5000 x y n) ∧
      decode (wordXYN 0x9000 x y n) = .unknown (wordXYN 0x9000 x y n)) ∧
    (∃ t, exec (.seReg x y) s = .next t ∧ t.pc = (if s.readV x = s.readV y then s.skipPc else s.nextPc) ∧
      t.status = .ok ∧ OnlyChanges s t [.pc, .status]) ∧
    (∃ t, exec (.sneReg x y) s = .next t ∧ t.pc = (if s.readV x ≠ s.readV y then s.skipPc else s.nextPc) ∧
      t.status = .ok ∧ OnlyChanges s t [.pc, .status])

/-- EX9E and EXA1 (41_skips.md R144, R145): the key asked about is the low nibble of V[x] (decision D16, log 12); the
answer is this step's input. -/
def Obligations.KeySkipsAskOneKey : Prop :=
  ∀ (s : State) (x : Reg),
    decode (wordX 0xE09E x) = .instr (.skp x) ∧ decode (wordX 0xE0A1 x) = .instr (.sknp x) ∧
    (∃ t, exec (.skp x) s = .next t ∧ t.status = .ok ∧ OnlyChanges s t [.pc, .status] ∧
      t.pc = (if s.input.keysDown.getLsbD ((s.readV x).toNat % 16) = true then s.skipPc else s.nextPc)) ∧
    (∃ t, exec (.sknp x) s = .next t ∧ t.status = .ok ∧ OnlyChanges s t [.pc, .status] ∧
      t.pc = (if s.input.keysDown.getLsbD ((s.readV x).toNat % 16) = true then s.nextPc else s.skipPc))

/-! ### Register load, arithmetic, logic, shift, random -/

/-- R150 and R152: 6XNN loads the immediate, 8XY0 copies V[y]. -/
def Obligations.LoadsSetTheRegister : Prop :=
  ∀ (s : State) (x y : Reg) (kk : Byte),
    decode (wordXNN 0x6000 x kk) = .instr (.ldImm x kk) ∧ decode (wordXYN 0x8000 x y 0x0) = .instr (.ldReg x y) ∧
    (∃ t, exec (.ldImm x kk) s = .next t ∧ t.readV x = kk ∧ t.pc = s.nextPc ∧ t.status = .ok ∧
      OnlyChanges s t [.v x, .pc, .status]) ∧
    (∃ t, exec (.ldReg x y) s = .next t ∧ t.readV x = s.readV y ∧ t.pc = s.nextPc ∧ t.status = .ok ∧
      OnlyChanges s t [.v x, .pc, .status])

/-- R151: 7XNN adds the immediate modulo 256 and, but for `x = 15`, leaves VF. -/
def Obligations.AddImmediateWrapsWithoutFlag : Prop :=
  ∀ (s : State) (x : Reg) (kk : Byte), decode (wordXNN 0x7000 x kk) = .instr (.addImm x kk) ∧
    ∃ t, exec (.addImm x kk) s = .next t ∧ (t.readV x).toNat = ((s.readV x).toNat + kk.toNat) % 256 ∧
      t.pc = s.nextPc ∧ t.status = .ok ∧ OnlyChanges s t [.v x, .pc, .status]

/-- R153 to R155: bitwise or, and, exclusive or into V[x]; VF is not written as a flag. -/
def Obligations.LogicCombinesBitwise : Prop :=
  ∀ (s : State) (x y : Reg),
    decode (wordXYN 0x8000 x y 0x1) = .instr (.or x y) ∧ decode (wordXYN 0x8000 x y 0x2) = .instr (.and x y) ∧
    decode (wordXYN 0x8000 x y 0x3) = .instr (.xor x y) ∧
    (∃ t, exec (.or x y) s = .next t ∧ t.pc = s.nextPc ∧ t.status = .ok ∧ OnlyChanges s t [.v x, .pc, .status] ∧
      ∀ k, k < 8 → (t.readV x).getLsbD k = ((s.readV x).getLsbD k || (s.readV y).getLsbD k)) ∧
    (∃ t, exec (.and x y) s = .next t ∧ t.pc = s.nextPc ∧ t.status = .ok ∧ OnlyChanges s t [.v x, .pc, .status] ∧
      ∀ k, k < 8 → (t.readV x).getLsbD k = ((s.readV x).getLsbD k && (s.readV y).getLsbD k)) ∧
    (∃ t, exec (.xor x y) s = .next t ∧ t.pc = s.nextPc ∧ t.status = .ok ∧ OnlyChanges s t [.v x, .pc, .status] ∧
      ∀ k, k < 8 → (t.readV x).getLsbD k = xor ((s.readV x).getLsbD k) ((s.readV y).getLsbD k))

/-- 8XY4 (42_alu.md R156): VF is 1 exactly when the sum of the old values exceeds 255, and V[x] is the sum modulo 256
unless `x = 15`, where the flag remains (decision D13, log 8). -/
def Obligations.AddSetsCarry : Prop :=
  ∀ (s : State) (x y : Reg), decode (wordXYN 0x8000 x y 0x4) = .instr (.addReg x y) ∧
    ∃ t, exec (.addReg x y) s = .next t ∧
      t.readV VF = (if 255 < (s.readV x).toNat + (s.readV y).toNat then 1#8 else 0#8) ∧
      (x ≠ VF → (t.readV x).toNat = ((s.readV x).toNat + (s.readV y).toNat) % 256) ∧
      t.pc = s.nextPc ∧ t.status = .ok ∧ OnlyChanges s t [.v x, .v VF, .pc, .status]

/-- 8XY5 and 8XY7 (42_alu.md R157, R159): the difference modulo 256 into V[x], VF 1 when no borrow occurred; with
`x = 15` the flag remains (decision D13, log 8). -/
def Obligations.SubtractSetsNoBorrow : Prop :=
  ∀ (s : State) (x y : Reg),
    decode (wordXYN 0x8000 x y 0x5) = .instr (.sub x y) ∧ decode (wordXYN 0x8000 x y 0x7) = .instr (.subn x y) ∧
    (∃ t, exec (.sub x y) s = .next t ∧
      t.readV VF = (if (s.readV y).toNat ≤ (s.readV x).toNat then 1#8 else 0#8) ∧
      (x ≠ VF → ((t.readV x).toNat : Int) = ((s.readV x).toNat - (s.readV y).toNat : Int) % 256) ∧
      t.pc = s.nextPc ∧ t.status = .ok ∧ OnlyChanges s t [.v x, .v VF, .pc, .status]) ∧
    (∃ t, exec (.subn x y) s = .next t ∧
      t.readV VF = (if (s.readV x).toNat ≤ (s.readV y).toNat then 1#8 else 0#8) ∧
      (x ≠ VF → ((t.readV x).toNat : Int) = ((s.readV y).toNat - (s.readV x).toNat : Int) % 256) ∧
      t.pc = s.nextPc ∧ t.status = .ok ∧ OnlyChanges s t [.v x, .v VF, .pc, .status])

/-- 8XY6 and 8XYE (42_alu.md R158, R160): the source is V[y] with SHIFT_USES_VY and V[x] without; V[x] is the source
shifted by one and VF the bit shifted out of it (decision D14, log 9); with `x = 15` the flag remains (D13, log 8). -/
def Obligations.ShiftsMoveOneBitOut : Prop :=
  ∀ (s : State) (x y : Reg) (src : Byte), src = (if s.config.shiftUsesVy then s.readV y else s.readV x) →
    decode (wordXYN 0x8000 x y 0x6) = .instr (.shr x y) ∧ decode (wordXYN 0x8000 x y 0xE) = .instr (.shl x y) ∧
    (∃ t, exec (.shr x y) s = .next t ∧ (t.readV VF).toNat = src.toNat % 2 ∧
      (x ≠ VF → (t.readV x).toNat = src.toNat / 2) ∧
      t.pc = s.nextPc ∧ t.status = .ok ∧ OnlyChanges s t [.v x, .v VF, .pc, .status]) ∧
    (∃ t, exec (.shl x y) s = .next t ∧ (t.readV VF).toNat = src.toNat / 128 ∧
      (x ≠ VF → (t.readV x).toNat = src.toNat * 2 % 256) ∧
      t.pc = s.nextPc ∧ t.status = .ok ∧ OnlyChanges s t [.v x, .v VF, .pc, .status])

/-- R161: CXNN puts the random byte of the step's input, under the mask, in V[x]; every bit outside the mask is 0. -/
def Obligations.RandomByteIsMasked : Prop :=
  ∀ (s : State) (x : Reg) (kk : Byte), decode (wordXNN 0xC000 x kk) = .instr (.rnd x kk) ∧
    ∃ t, exec (.rnd x kk) s = .next t ∧
      (∀ k, k < 8 → (t.readV x).getLsbD k = (s.input.rand.getLsbD k && kk.getLsbD k)) ∧
      t.pc = s.nextPc ∧ t.status = .ok ∧ OnlyChanges s t [.v x, .pc, .status]

/-! ### Address register and memory transfer -/

/-- R170: ANNN loads I with `addr`. -/
def Obligations.LoadIndexSetsI : Prop :=
  ∀ (s : State) (addr : Addr), decode (wordNNN 0xA000 addr) = .instr (.ldI addr) ∧
    ∃ t, exec (.ldI addr) s = .next t ∧ t.i = addr.setWidth 16 ∧ t.pc = s.nextPc ∧ t.status = .ok ∧
      OnlyChanges s t [.i, .pc, .status]

/-- FX1E (43_index_memory.md R171): I plus V[x] modulo 4096; VF is written only with I_OVERFLOW_SETS_VF, and then with 1
on overflow and 0 otherwise (decision D7, log 7). -/
def Obligations.AddToIndexWraps : Prop :=
  ∀ (s : State) (x : Reg), decode (wordX 0xF01E x) = .instr (.addI x) ∧
    ∃ t, exec (.addI x) s = .next t ∧ t.i.toNat = (s.i.toNat + (s.readV x).toNat) % 4096 ∧ t.pc = s.nextPc ∧
      t.status = .ok ∧
      (s.config.iOverflowSetsVf = false → OnlyChanges s t [.i, .pc, .status]) ∧
      (s.config.iOverflowSetsVf = true → OnlyChanges s t [.i, .v VF, .pc, .status] ∧
        t.readV VF = (if 0xFFF < s.i.toNat + (s.readV x).toNat then 1#8 else 0#8))

/-- FX29 (43_index_memory.md R172): the sprite table's base plus five times the whole byte V[x], modulo 4096 (that the
whole byte counts is decision D18, log 14). -/
def Obligations.PointIndexAtGlyph : Prop :=
  ∀ (s : State) (x : Reg), decode (wordX 0xF029 x) = .instr (.ldF x) ∧
    ∃ t, exec (.ldF x) s = .next t ∧
      t.i.toNat = (s.config.spriteTableAddress.toNat + (s.readV x).toNat * 5) % 4096 ∧ t.pc = s.nextPc ∧
      t.status = .ok ∧ OnlyChanges s t [.i, .pc, .status]

/-- FX33 (43_index_memory.md R173): the decimal digits of V[x] at I, I+1, I+2 and no other byte; past the end of memory
`OutOfBounds` of 4096 and nothing stored (decisions D10, D12, log 11). I is unchanged (D19, log 15). -/
def Obligations.StoreDecimalDigits : Prop :=
  ∀ (s : State) (x : Reg), decode (wordX 0xF033 x) = .instr (.ldB x) ∧
    (s.mem.wf = true → s.i.toNat + 2 < 4096 →
      ∃ t, exec (.ldB x) s = .next t ∧ (t.mem.read s.i.toNat).toNat = (s.readV x).toNat / 100 ∧
        (t.mem.read (s.i.toNat + 1)).toNat = (s.readV x).toNat / 10 % 10 ∧
        (t.mem.read (s.i.toNat + 2)).toNat = (s.readV x).toNat % 10 ∧ t.pc = s.nextPc ∧ t.status = .ok ∧
        OnlyChanges s t (.pc :: .status :: memRange s.i.toNat 3)) ∧
    (s.i.toNat < 4096 → 4096 ≤ s.i.toNat + 2 → exec (.ldB x) s = .fault (.outOfBounds 4096))

/-- FX55 (43_index_memory.md R174): V[0] to V[x] at I to I+x and no other byte; past the end of memory `OutOfBounds` of
4096 and nothing stored (decisions D10, D12, log 11). I is unchanged (D19, log 15). -/
def Obligations.StoreRegistersAtI : Prop :=
  ∀ (s : State) (x : Reg), decode (wordX 0xF055 x) = .instr (.stRegs x) ∧
    (s.mem.wf = true → s.i.toNat + x.val < 4096 →
      ∃ t, exec (.stRegs x) s = .next t ∧ (∀ j : Reg, j ≤ x → t.mem.read (s.i.toNat + j.val) = s.readV j) ∧
        t.pc = s.nextPc ∧ t.status = .ok ∧ OnlyChanges s t (.pc :: .status :: memRange s.i.toNat (x.val + 1))) ∧
    (s.i.toNat < 4096 → 4096 ≤ s.i.toNat + x.val → exec (.stRegs x) s = .fault (.outOfBounds 4096))

/-- FX65 (43_index_memory.md R175): the bytes at I to I+x into V[0] to V[x], every other register and all of memory
unchanged; past the end of memory `OutOfBounds` of 4096 and no register written (decisions D10, D12, log 11). I is
unchanged (D19, log 15). -/
def Obligations.LoadRegistersFromI : Prop :=
  ∀ (s : State) (x : Reg), decode (wordX 0xF065 x) = .instr (.ldRegs x) ∧
    (s.i.toNat + x.val < 4096 →
      ∃ t, exec (.ldRegs x) s = .next t ∧ (∀ j : Reg, j ≤ x → t.readV j = s.mem.read (s.i.toNat + j.val)) ∧
        t.pc = s.nextPc ∧ t.status = .ok ∧ OnlyChanges s t (.pc :: .status :: regRange x)) ∧
    (s.i.toNat < 4096 → 4096 ≤ s.i.toNat + x.val → exec (.ldRegs x) s = .fault (.outOfBounds 4096))

/-! ### Display, keyboard wait and counters -/

/-- R180: 00E0 sends one clear request and changes nothing else. -/
def Obligations.ClearSendsOneRequest : Prop :=
  decode 0x00E0#16 = .instr .cls ∧
  ∀ s : State, ∃ t, exec .cls s = .next t ∧ t.requests = s.requests ++ [.clear] ∧ t.pc = s.nextPc ∧ t.status = .ok ∧
    OnlyChanges s t [.requests, .pc, .status]

/-- DXYN (44_io_timers.md R181): one request with the raw coordinates and the `n` bytes at I, VF the display's answer;
`n = 0` sends an empty request; past the end of memory `OutOfBounds` of 4096 and no request (decisions D10, D12,
D20, logs 11 and 16). I is unchanged (D19, log 15). -/
def Obligations.DrawSendsSpriteAndTakesCollision : Prop :=
  ∀ (s : State) (x y : Reg) (n : Rows), decode (wordXYN 0xD000 x y n) = .instr (.drw x y n) ∧
    (n.val = 0 ∨ s.i.toNat + n.val ≤ 4096 →
      ∃ t, exec (.drw x y n) s = .next t ∧
        t.requests = s.requests ++
          [.draw (s.readV x) (s.readV y) ((List.range n.val).map fun k => s.mem.read (s.i.toNat + k))] ∧
        t.readV VF = (if s.input.collision then 1#8 else 0#8) ∧ t.pc = s.nextPc ∧ t.status = .ok ∧
        OnlyChanges s t [.requests, .v VF, .pc, .status]) ∧
    (s.i.toNat < 4096 → 0 < n.val → 4096 ≤ s.i.toNat + n.val - 1 → exec (.drw x y n) s = .fault (.outOfBounds 4096))

/-- R182 and R184: FX07 reads DT into V[x] and leaves DT, FX15 sets DT from V[x]. -/
def Obligations.DelayCounterTransfers : Prop :=
  ∀ (s : State) (x : Reg),
    decode (wordX 0xF007 x) = .instr (.ldVxDt x) ∧ decode (wordX 0xF015 x) = .instr (.ldDtVx x) ∧
    (∃ t, exec (.ldVxDt x) s = .next t ∧ t.readV x = s.dt ∧ t.pc = s.nextPc ∧ t.status = .ok ∧
      OnlyChanges s t [.v x, .pc, .status]) ∧
    (∃ t, exec (.ldDtVx x) s = .next t ∧ t.dt = s.readV x ∧ t.pc = s.nextPc ∧ t.status = .ok ∧
      OnlyChanges s t [.dt, .pc, .status])

/-- R185: FX18 sets ST from V[x], `read_sound()` then gives it, and no instruction reads ST back: with another ST every
meaning does the same and keeps that ST, but for FX18, which overwrites it. -/
def Obligations.SoundCounterIsSetAndNeverRead : Prop :=
  (∀ (s : State) (x : Reg), decode (wordX 0xF018 x) = .instr (.ldStVx x) ∧
    ∃ t, exec (.ldStVx x) s = .next t ∧ t.st = s.readV x ∧ readSound t = s.readV x ∧ t.pc = s.nextPc ∧
      t.status = .ok ∧ OnlyChanges s t [.st, .pc, .status]) ∧
  (∀ (i : Instr) (s : State) (b : Byte),
    exec i (s.writeSound b) =
      (match exec i s with
       | .next t => .next (if ∃ x, i = .ldStVx x then t else t.writeSound b)
       | .fault e => .fault e
       | .refused r => .refused r))

/-- FX0A (44_io_timers.md R183): with a key press V[x] becomes the key number and the step completes; with none the step
returns `WaitingForKey` and changes nothing (decision D17, log 13). -/
def Obligations.KeyWaitStoresOrWaits : Prop :=
  ∀ (s : State) (x : Reg), decode (wordX 0xF00A x) = .instr (.ldVxK x) ∧
    (∀ k : Key, s.input.keyPress = some k →
      ∃ t, exec (.ldVxK x) s = .next t ∧ (t.readV x).toNat = k.val ∧ t.pc = s.nextPc ∧ t.status = .ok ∧
        OnlyChanges s t [.v x, .pc, .status]) ∧
    (s.input.keyPress = none →
      ∃ t, exec (.ldVxK x) s = .next t ∧ t.status = .waitingForKey ∧ OnlyChanges s t [.status])
end

