-- ==== Sys2Proof/Laws/Decode.lean ====
section
/-! SUPPORT. The fields of an opcode as numbers, and the numbers of the encoder's formats. -/

namespace Sys2Proof

theorem nibbleField_val (w : Word) (lo : Nat) : (nibbleField w lo).val = w.toNat / 2 ^ lo % 16 := by
  simp [nibbleField, Nat.shiftRight_eq_div_pow]

theorem fieldKk_toNat (w : Word) : (fieldKk w).toNat = w.toNat % 256 := by
  simp [fieldKk, BitVec.extractLsb'_toNat]

theorem fieldAddr_toNat (w : Word) : (fieldAddr w).toNat = w.toNat % 4096 := by
  simp [fieldAddr, BitVec.extractLsb'_toNat]

/-- An opcode is its four nibbles put together. -/
theorem toNat_of_fields (w : Word) :
    w.toNat = (fieldOp w).val * 4096 + (fieldX w).val * 256 + (fieldY w).val * 16 + (fieldN w).val := by
  have := w.isLt
  simp only [fieldOp, fieldX, fieldY, fieldN, nibbleField_val]
  omega

/-- Disjoint bits add up. -/
theorem or_eq_add (i a b : Nat) (h : b < 2 ^ i) : 2 ^ i * a ||| b = 2 ^ i * a + b :=
  (Nat.two_pow_add_eq_or_of_lt h a).symm

/-- The number of an opcode of format NNN whose primary selector is `m`. -/
theorem wordNNN_toNat (m : Fin 16) (addr : Addr) :
    (wordNNN (BitVec.ofNat 16 (4096 * m.val)) addr).toNat = 4096 * m.val + addr.toNat := by
  have h := addr.isLt
  have hm := m.isLt
  rw [wordNNN, BitVec.toNat_or, BitVec.toNat_ofNat, BitVec.toNat_setWidth,
    Nat.mod_eq_of_lt (by omega), Nat.mod_eq_of_lt (by omega)]
  exact or_eq_add 12 m.val addr.toNat h

/-- The number of an opcode of format XNN whose primary selector is `m`. -/
theorem wordXNN_toNat (m : Fin 16) (x : Reg) (kk : Byte) :
    (wordXNN (BitVec.ofNat 16 (4096 * m.val)) x kk).toNat = 4096 * m.val + 256 * x.val + kk.toNat := by
  have h := kk.isLt
  have hm := m.isLt
  have hx := x.isLt
  rw [wordXNN, BitVec.toNat_or, BitVec.toNat_or, BitVec.toNat_shiftLeft, BitVec.toNat_ofNat, BitVec.toNat_ofNat,
    BitVec.toNat_setWidth, Nat.mod_eq_of_lt (a := 4096 * m.val) (by omega), Nat.mod_eq_of_lt (a := x.val) (by omega),
    Nat.mod_eq_of_lt (a := kk.toNat) (by omega), Nat.shiftLeft_eq, Nat.mod_eq_of_lt (by omega)]
  have e : 4096 * m.val ||| x.val * 2 ^ 8 = 2 ^ 8 * (16 * m.val + x.val) := by
    have h12 : 4096 * m.val ||| x.val * 2 ^ 8 = 4096 * m.val + x.val * 2 ^ 8 := or_eq_add 12 _ _ (by omega)
    omega
  rw [e, or_eq_add 8 _ _ h]
  omega

/-- The number of an opcode of format XY or XYN whose primary selector is `m`. -/
theorem wordXYN_toNat (m : Fin 16) (x y : Reg) (n : Rows) :
    (wordXYN (BitVec.ofNat 16 (4096 * m.val)) x y n).toNat = 4096 * m.val + 256 * x.val + 16 * y.val + n.val := by
  have hm := m.isLt
  have hx := x.isLt
  have hy := y.isLt
  have hn := n.isLt
  rw [wordXYN, BitVec.toNat_or, BitVec.toNat_or, BitVec.toNat_or, BitVec.toNat_shiftLeft, BitVec.toNat_shiftLeft,
    BitVec.toNat_ofNat, BitVec.toNat_ofNat, BitVec.toNat_ofNat, BitVec.toNat_ofNat,
    Nat.mod_eq_of_lt (a := 4096 * m.val) (by omega), Nat.mod_eq_of_lt (a := x.val) (by omega),
    Nat.mod_eq_of_lt (a := y.val) (by omega), Nat.mod_eq_of_lt (a := n.val) (by omega),
    Nat.shiftLeft_eq, Nat.shiftLeft_eq, Nat.mod_eq_of_lt (a := x.val * 2 ^ 8) (by omega),
    Nat.mod_eq_of_lt (a := y.val * 2 ^ 4) (by omega)]
  have e1 : 4096 * m.val ||| x.val * 2 ^ 8 = 2 ^ 8 * (16 * m.val + x.val) := by
    have h12 : 4096 * m.val ||| x.val * 2 ^ 8 = 4096 * m.val + x.val * 2 ^ 8 := or_eq_add 12 _ _ (by omega)
    omega
  have e2 : 2 ^ 8 * (16 * m.val + x.val) ||| y.val * 2 ^ 4 = 2 ^ 4 * (256 * m.val + 16 * x.val + y.val) := by
    have := or_eq_add 8 (16 * m.val + x.val) (y.val * 2 ^ 4) (by omega)
    omega
  rw [e1, e2, or_eq_add 4 _ _ hn]
  omega

/-- The bytes of an opcode, high byte first, form it again. -/
theorem opcodeOfBytes_bytes (w : Word) : opcodeOfBytes (highByte w) (lowByte w) = w := by
  have := w.isLt
  apply BitVec.eq_of_toNat_eq
  simp only [opcodeOfBytes, highByte, lowByte, BitVec.toNat_append, BitVec.extractLsb'_toNat,
    Nat.shiftRight_eq_div_pow, Nat.shiftLeft_eq]
  have h := or_eq_add 8 (w.toNat / 2 ^ 8 % 2 ^ 8) (w.toNat / 2 ^ 0 % 2 ^ 8) (by omega)
  rw [Nat.mul_comm] at h
  rw [h]; omega

/-! ### The fields of each format, and the format of given fields -/

/-- The fields of an opcode are its digits to the base 16. -/
theorem fields_of_digits {w : Word} {a b c d : Nat} (_ : a < 16) (hb : b < 16) (hc : c < 16) (hd : d < 16)
    (h : w.toNat = 4096 * a + 256 * b + 16 * c + d) :
    (fieldOp w).val = a ∧ (fieldX w).val = b ∧ (fieldY w).val = c ∧ (fieldN w).val = d := by
  refine ⟨?_, ?_, ?_, ?_⟩ <;> simp only [fieldOp, fieldX, fieldY, fieldN, nibbleField_val, h] <;> omega

theorem fields_wordXYN (m : Fin 16) (x y : Reg) (n : Rows) {w : Word}
    (hw : w = wordXYN (BitVec.ofNat 16 (4096 * m.val)) x y n) :
    (fieldOp w).val = m.val ∧ fieldX w = x ∧ fieldY w = y ∧ fieldN w = n := by
  subst hw
  obtain ⟨h1, h2, h3, h4⟩ := fields_of_digits m.isLt x.isLt y.isLt n.isLt (wordXYN_toNat m x y n)
  exact ⟨h1, Fin.ext h2, Fin.ext h3, Fin.ext h4⟩

theorem fields_wordXNN (m : Fin 16) (x : Reg) (kk : Byte) {w : Word}
    (hw : w = wordXNN (BitVec.ofNat 16 (4096 * m.val)) x kk) :
    (fieldOp w).val = m.val ∧ fieldX w = x ∧ fieldKk w = kk := by
  have h : w.toNat = _ := hw ▸ wordXNN_toNat m x kk
  have hk := kk.isLt
  obtain ⟨h1, h2, -, -⟩ := fields_of_digits (w := w) (c := kk.toNat / 16) (d := kk.toNat % 16) m.isLt x.isLt
    (by omega) (by omega) (by omega)
  exact ⟨h1, Fin.ext h2, BitVec.eq_of_toNat_eq (by rw [fieldKk_toNat]; omega)⟩

theorem fields_wordNNN (m : Fin 16) (addr : Addr) {w : Word}
    (hw : w = wordNNN (BitVec.ofNat 16 (4096 * m.val)) addr) :
    (fieldOp w).val = m.val ∧ fieldAddr w = addr ∧ (fieldX w).val = addr.toNat / 256 := by
  have h : w.toNat = _ := hw ▸ wordNNN_toNat m addr
  have ha := addr.isLt
  obtain ⟨h1, h2, -, -⟩ := fields_of_digits (w := w) (b := addr.toNat / 256) (c := addr.toNat / 16 % 16)
    (d := addr.toNat % 16) m.isLt (by omega) (by omega) (by omega) (by omega)
  exact ⟨h1, BitVec.eq_of_toNat_eq (by rw [fieldAddr_toNat]; omega), h2⟩

theorem wordXYN_fields {w : Word} {m : Fin 16} (h : (fieldOp w).val = m.val) :
    wordXYN (BitVec.ofNat 16 (4096 * m.val)) (fieldX w) (fieldY w) (fieldN w) = w := by
  apply BitVec.eq_of_toNat_eq
  rw [wordXYN_toNat, toNat_of_fields w]; omega

theorem wordXNN_fields {w : Word} {m : Fin 16} (h : (fieldOp w).val = m.val) :
    wordXNN (BitVec.ofNat 16 (4096 * m.val)) (fieldX w) (fieldKk w) = w := by
  have hw := toNat_of_fields w
  apply BitVec.eq_of_toNat_eq
  rw [wordXNN_toNat, fieldKk_toNat]
  simp only [fieldOp, fieldX, fieldY, fieldN, nibbleField_val] at *
  omega

theorem wordNNN_fields {w : Word} {m : Fin 16} (h : (fieldOp w).val = m.val) :
    wordNNN (BitVec.ofNat 16 (4096 * m.val)) (fieldAddr w) = w := by
  have hw := toNat_of_fields w
  apply BitVec.eq_of_toNat_eq
  rw [wordNNN_toNat, fieldAddr_toNat]
  simp only [fieldOp, fieldX, fieldY, fieldN, nibbleField_val] at *
  omega

/-! ### Which bits of an opcode the operands leave alone -/

theorem or_and_mask (a b k : Word) : (a ||| b) &&& k = (a &&& k) ||| (b &&& k) := by
  ext i hi
  simp [Bool.and_or_distrib_right]

theorem wordNNN_and_mask (m : Word) (addr : Addr) : wordNNN m addr &&& 0xF000#16 = m &&& 0xF000#16 := by
  have h : addr.setWidth 16 &&& 0xF000#16 = 0#16 := by
    ext i hi
    interval_cases i <;> simp
  rw [wordNNN, or_and_mask, h, BitVec.or_zero]

theorem wordXNN_and_mask (m : Word) (x : Reg) (kk : Byte) : wordXNN m x kk &&& 0xF000#16 = m &&& 0xF000#16 := by
  have hx : ∀ x : Reg, (BitVec.ofNat 16 x.val <<< 8) &&& 0xF000#16 = 0#16 := by decide
  have hk : kk.setWidth 16 &&& 0xF000#16 = 0#16 := by
    ext i hi
    interval_cases i <;> simp
  rw [wordXNN, or_and_mask, or_and_mask, hx, hk, BitVec.or_zero, BitVec.or_zero]

theorem wordXYN_and_mask (m : Word) (x y : Reg) (n : Rows) : wordXYN m x y n &&& 0xF000#16 = m &&& 0xF000#16 := by
  have hx : ∀ x : Reg, (BitVec.ofNat 16 x.val <<< 8) &&& 0xF000#16 = 0#16 := by decide
  have hy : ∀ y : Reg, (BitVec.ofNat 16 y.val <<< 4) &&& 0xF000#16 = 0#16 := by decide
  have hn : ∀ n : Rows, BitVec.ofNat 16 n.val &&& 0xF000#16 = 0#16 := by decide
  rw [wordXYN, or_and_mask, or_and_mask, or_and_mask, hx, hy, hn, BitVec.or_zero, BitVec.or_zero, BitVec.or_zero]

/-- The mask of format XY keeps the low nibble as well. -/
theorem wordXY_and_mask (m : Word) (x y : Reg) (n : Rows) :
    wordXYN m x y n &&& 0xF00F#16 = (m &&& 0xF00F#16) ||| BitVec.ofNat 16 n.val := by
  have hx : ∀ x : Reg, (BitVec.ofNat 16 x.val <<< 8) &&& 0xF00F#16 = 0#16 := by decide
  have hy : ∀ y : Reg, (BitVec.ofNat 16 y.val <<< 4) &&& 0xF00F#16 = 0#16 := by decide
  have hn : ∀ n : Rows, BitVec.ofNat 16 n.val &&& 0xF00F#16 = BitVec.ofNat 16 n.val := by decide
  rw [wordXYN, or_and_mask, or_and_mask, or_and_mask, hx, hy, hn, BitVec.or_zero, BitVec.or_zero]

/-- The mask of format X keeps everything but `x`. -/
theorem wordX_and_mask (m : Word) (x : Reg) : wordX m x &&& 0xF0FF#16 = m &&& 0xF0FF#16 := by
  have hx : ∀ x : Reg, (BitVec.ofNat 16 x.val <<< 8) &&& 0xF0FF#16 = 0#16 := by decide
  rw [wordX, or_and_mask, hx, BitVec.or_zero]

end Sys2Proof
end

