-- ==== Sys2Proof/Laws/Memory.lean ====
section
/-! SUPPORT. What the memory operations do, said once: each keeps the canonical form, and each read after a write. -/

namespace Sys2Proof.Machine

@[simp] theorem Memory.wfFrom_nil (lo : Nat) : Memory.wfFrom lo [] = true := rfl

theorem Memory.wfFrom_cons {lo a : Nat} {b : Byte} {m : Memory} :
    Memory.wfFrom lo ((a, b) :: m) = true ↔
      lo ≤ a ∧ a < 4096 ∧ b ≠ 0#8 ∧ Memory.wfFrom (a + 1) m = true := by
  simp only [Memory.wfFrom, memSize, Bool.and_eq_true, decide_eq_true_eq, and_assoc]

theorem Memory.wfFrom_mono {lo lo' : Nat} (h : lo ≤ lo') :
    ∀ {m : Memory}, Memory.wfFrom lo' m = true → Memory.wfFrom lo m = true
  | [], _ => rfl
  | (_, _) :: _, hm => by
    rw [Memory.wfFrom_cons] at hm ⊢
    exact ⟨by omega, hm.2⟩

/-- A cell below the first listed address holds 0. -/
theorem Memory.read_below {lo k : Nat} (hk : k < lo) :
    ∀ {m : Memory}, Memory.wfFrom lo m = true → m.read k = 0
  | [], _ => rfl
  | (a, _) :: m, hm => by
    rw [Memory.wfFrom_cons] at hm
    have ha : a ≠ k := by omega
    rw [Memory.read, if_neg ha]
    exact Memory.read_below (by omega) hm.2.2.2

/-- An address with no cell reads 0. -/
theorem Memory.read_outside {k : Nat} (hk : 4096 ≤ k) :
    ∀ {lo : Nat} {m : Memory}, Memory.wfFrom lo m = true → m.read k = 0
  | _, [], _ => rfl
  | _, (a, _) :: m, hm => by
    rw [Memory.wfFrom_cons] at hm
    have ha : a ≠ k := by omega
    rw [Memory.read, if_neg ha]
    exact Memory.read_outside hk hm.2.2.2

theorem Memory.read_write_from {k : Nat} {b : Byte} (c : Nat) :
    ∀ {lo : Nat} {m : Memory}, Memory.wfFrom lo m = true →
      (m.write k b).read c = if c = k then b else m.read c
  | _, [], _ => by
    by_cases hb : b = 0#8
    · simp [Memory.write, Memory.read, hb]
    · simp only [Memory.write, if_neg hb, Memory.read, eq_comm (a := k)]
  | lo, (a, e) :: m, hm => by
    rw [Memory.wfFrom_cons] at hm
    obtain ⟨_, _, _, hm⟩ := hm
    rcases Nat.lt_trichotomy k a with h | h | h
    · have hk : Memory.read ((a, e) :: m) k = 0 := by
        rw [Memory.read, if_neg (by omega)]
        exact Memory.read_below (by omega) hm
      by_cases hb : b = 0#8
      · subst hb
        simp only [Memory.write, if_pos h, if_true]
        by_cases hc : c = k
        · subst hc; simp [hk]
        · simp [hc]
      · simp only [Memory.write, if_pos h, if_neg hb]
        rw [Memory.read]
        by_cases hc : c = k
        · simp [hc]
        · rw [if_neg (Ne.symm hc), if_neg hc]
    · subst h
      have hk : Memory.read m k = 0 := Memory.read_below (by omega) hm
      by_cases hb : b = 0#8
      · subst hb
        simp only [Memory.write, lt_irrefl, if_false, if_true]
        by_cases hc : c = k
        · subst hc; simp [hk]
        · simp [hc, Memory.read, Ne.symm hc]
      · simp only [Memory.write, lt_irrefl, if_false, if_true, if_neg hb, Memory.read]
        by_cases hc : c = k
        · simp [hc]
        · simp [hc, Ne.symm hc]
    · simp only [Memory.write, if_neg (show ¬ k < a by omega), if_neg (show ¬ k = a by omega), Memory.read]
      by_cases hc : a = c
      · rw [if_pos hc, if_neg (by omega), if_pos hc]
      · rw [if_neg hc, if_neg hc, Memory.read_write_from c hm]

/-- Reading after a write. -/
theorem Memory.read_write {m : Memory} (hm : m.wf = true) (k c : Nat) (b : Byte) :
    (m.write k b).read c = if c = k then b else m.read c := Memory.read_write_from c hm

theorem Memory.wfFrom_write {k : Nat} {b : Byte} (hk : k < 4096) :
    ∀ {lo : Nat} {m : Memory}, lo ≤ k → Memory.wfFrom lo m = true → Memory.wfFrom lo (m.write k b) = true
  | lo, [], hlo, _ => by
    by_cases hb : b = 0#8
    · simp [Memory.write, hb]
    · simp only [Memory.write, if_neg hb, Memory.wfFrom_cons]
      exact ⟨hlo, hk, hb, rfl⟩
  | lo, (a, e) :: m, hlo, hm => by
    have hm' := Memory.wfFrom_cons.1 hm
    obtain ⟨h1, h2, h3, h4⟩ := hm'
    rcases Nat.lt_trichotomy k a with h | h | h
    · by_cases hb : b = 0#8
      · simpa [Memory.write, h, hb] using hm
      · simp only [Memory.write, if_pos h, if_neg hb, Memory.wfFrom_cons]
        exact ⟨hlo, hk, hb, by omega, h2, h3, h4⟩
    · subst h
      by_cases hb : b = 0#8
      · simpa [Memory.write, hb] using Memory.wfFrom_mono (by omega) h4
      · simp only [Memory.write, lt_irrefl, if_false, if_true, if_neg hb, Memory.wfFrom_cons]
        exact ⟨hlo, hk, hb, h4⟩
    · simp only [Memory.write, if_neg (show ¬ k < a by omega), if_neg (show ¬ k = a by omega), Memory.wfFrom_cons]
      exact ⟨h1, h2, h3, Memory.wfFrom_write hk (by omega) h4⟩

/-- A write to a cell keeps the canonical form. -/
theorem Memory.wf_write {m : Memory} (hm : m.wf = true) {k : Nat} (hk : k < 4096) (b : Byte) :
    (m.write k b).wf = true := Memory.wfFrom_write hk (Nat.zero_le k) hm

/-- Storing bytes inside memory keeps the canonical form. -/
theorem Memory.wf_writeBytes : ∀ (bs : List Byte) {m : Memory} {a : Nat}, m.wf = true → a + bs.length ≤ 4096 →
    (m.writeBytes a bs).wf = true
  | [], _, _, hm, _ => hm
  | b :: bs, m, a, hm, h => by
    simp only [List.length_cons] at h
    exact Memory.wf_writeBytes bs (Memory.wf_write hm (by omega) b) (by omega)

/-- Reading after bytes were stored: the stored byte inside the range, the old byte outside. -/
theorem Memory.read_writeBytes : ∀ (bs : List Byte) {m : Memory} {a : Nat} (c : Nat), m.wf = true →
    a + bs.length ≤ 4096 →
    (m.writeBytes a bs).read c = if a ≤ c ∧ c < a + bs.length then bs.getD (c - a) 0#8 else m.read c
  | [], m, a, c, _, _ => by
    rw [Memory.writeBytes, if_neg (by simp only [List.length_nil]; omega)]
  | b :: bs, m, a, c, hm, h => by
    simp only [List.length_cons] at h
    rw [Memory.writeBytes, Memory.read_writeBytes bs c (Memory.wf_write hm (by omega) b) (by omega),
      Memory.read_write hm]
    rcases Nat.lt_trichotomy c a with hc | hc | hc
    · rw [if_neg (by omega), if_neg (by omega), if_neg (by simp; omega)]
    · subst hc
      rw [if_neg (by omega), if_pos rfl, if_pos (by simp)]
      simp
    · obtain ⟨d, rfl⟩ : ∃ d, c = a + 1 + d := ⟨c - (a + 1), by omega⟩
      have e1 : a + 1 + d - (a + 1) = d := by omega
      have e2 : a + 1 + d - a = d + 1 := by omega
      by_cases hd : d < bs.length
      · rw [if_pos (by omega), if_pos (by simp; omega), e1, e2, List.getD_cons_succ]
      · rw [if_neg (by omega), if_neg (by omega), if_neg (by simp; omega)]

@[simp] theorem Memory.length_readBytes (m : Memory) : ∀ (n a : Nat), (m.readBytes a n).length = n
  | 0, _ => rfl
  | n + 1, a => by simp [Memory.readBytes, Memory.length_readBytes m n]

/-- The bytes read are the cells in ascending order. -/
theorem Memory.readBytes_eq_map (m : Memory) :
    ∀ (n a : Nat), m.readBytes a n = (List.range n).map (fun k => m.read (a + k))
  | 0, _ => rfl
  | n + 1, a => by
    rw [Memory.readBytes, Memory.readBytes_eq_map m n, List.range_succ_eq_map]
    simp [Nat.add_comm, Nat.add_left_comm, Function.comp_def]

/-- Placing an opcode keeps the canonical form. -/
theorem Memory.wf_placeOpcode {m : Memory} (hm : m.wf = true) (a : Nat) (w : Word) :
    (m.placeOpcode a w).wf = true := by
  unfold Memory.placeOpcode
  split
  · rename_i h
    have h : a + 1 < 4096 := h
    exact Memory.wf_write (Memory.wf_write hm (by omega) _) h _
  · exact hm

/-- Reset memory has the canonical form. -/
theorem State.reset_mem_wf (c : Config) : (State.resetWith c).mem.wf = true := rfl

end Sys2Proof.Machine
end

