-- ==== Sys2Proof/Laws/State.lean ====
section
/-! SUPPORT. One lemma per field per update of the state, each true by definition: no later proof unfolds a record
update. -/

namespace Sys2Proof.Machine

/-! ### setPc -/

section
variable (s : State) (w : Word)

@[simp] theorem State.setPc_v : (s.setPc w).v = s.v := rfl
@[simp] theorem State.setPc_i : (s.setPc w).i = s.i := rfl
@[simp] theorem State.setPc_pc : (s.setPc w).pc = w := rfl
@[simp] theorem State.setPc_dt : (s.setPc w).dt = s.dt := rfl
@[simp] theorem State.setPc_st : (s.setPc w).st = s.st := rfl
@[simp] theorem State.setPc_stack : (s.setPc w).stack = s.stack := rfl
@[simp] theorem State.setPc_mem : (s.setPc w).mem = s.mem := rfl
@[simp] theorem State.setPc_config : (s.setPc w).config = s.config := rfl
@[simp] theorem State.setPc_inputs : (s.setPc w).inputs = s.inputs := rfl
@[simp] theorem State.setPc_inputCount : (s.setPc w).inputCount = s.inputCount := rfl
@[simp] theorem State.setPc_status : (s.setPc w).status = s.status := rfl
@[simp] theorem State.setPc_requests : (s.setPc w).requests = s.requests := rfl
@[simp] theorem State.setPc_readV (r : Reg) : (s.setPc w).readV r = s.readV r := rfl
@[simp] theorem State.setPc_input : (s.setPc w).input = s.input := rfl

end

/-! ### setStatus -/

section
variable (s : State) (a : Status)

@[simp] theorem State.setStatus_v : (s.setStatus a).v = s.v := rfl
@[simp] theorem State.setStatus_i : (s.setStatus a).i = s.i := rfl
@[simp] theorem State.setStatus_pc : (s.setStatus a).pc = s.pc := rfl
@[simp] theorem State.setStatus_dt : (s.setStatus a).dt = s.dt := rfl
@[simp] theorem State.setStatus_st : (s.setStatus a).st = s.st := rfl
@[simp] theorem State.setStatus_stack : (s.setStatus a).stack = s.stack := rfl
@[simp] theorem State.setStatus_mem : (s.setStatus a).mem = s.mem := rfl
@[simp] theorem State.setStatus_config : (s.setStatus a).config = s.config := rfl
@[simp] theorem State.setStatus_inputs : (s.setStatus a).inputs = s.inputs := rfl
@[simp] theorem State.setStatus_inputCount : (s.setStatus a).inputCount = s.inputCount := rfl
@[simp] theorem State.setStatus_status : (s.setStatus a).status = a := rfl
@[simp] theorem State.setStatus_requests : (s.setStatus a).requests = s.requests := rfl
@[simp] theorem State.setStatus_readV (r : Reg) : (s.setStatus a).readV r = s.readV r := rfl
@[simp] theorem State.setStatus_nextPc : (s.setStatus a).nextPc = s.nextPc := rfl
@[simp] theorem State.setStatus_skipPc : (s.setStatus a).skipPc = s.skipPc := rfl
@[simp] theorem State.setStatus_target (p : PcOutcome) : p.target (s.setStatus a) = p.target s := by cases p <;> rfl
@[simp] theorem State.setStatus_input : (s.setStatus a).input = s.input := rfl

end

/-! ### writeV -/

section
variable (s : State) (x : Reg) (b : Byte)

@[simp] theorem State.writeV_v : (s.writeV x b).v = s.v.set x b := rfl
@[simp] theorem State.writeV_i : (s.writeV x b).i = s.i := rfl
@[simp] theorem State.writeV_pc : (s.writeV x b).pc = s.pc := rfl
@[simp] theorem State.writeV_dt : (s.writeV x b).dt = s.dt := rfl
@[simp] theorem State.writeV_st : (s.writeV x b).st = s.st := rfl
@[simp] theorem State.writeV_stack : (s.writeV x b).stack = s.stack := rfl
@[simp] theorem State.writeV_mem : (s.writeV x b).mem = s.mem := rfl
@[simp] theorem State.writeV_config : (s.writeV x b).config = s.config := rfl
@[simp] theorem State.writeV_inputs : (s.writeV x b).inputs = s.inputs := rfl
@[simp] theorem State.writeV_inputCount : (s.writeV x b).inputCount = s.inputCount := rfl
@[simp] theorem State.writeV_status : (s.writeV x b).status = s.status := rfl
@[simp] theorem State.writeV_requests : (s.writeV x b).requests = s.requests := rfl
@[simp] theorem State.writeV_nextPc : (s.writeV x b).nextPc = s.nextPc := rfl
@[simp] theorem State.writeV_skipPc : (s.writeV x b).skipPc = s.skipPc := rfl
@[simp] theorem State.writeV_target (p : PcOutcome) : p.target (s.writeV x b) = p.target s := by cases p <;> rfl
@[simp] theorem State.writeV_input : (s.writeV x b).input = s.input := rfl

end

/-! ### setRegs -/

section
variable (s : State) (r : Vector Byte 16)

@[simp] theorem State.setRegs_v : (s.setRegs r).v = r := rfl
@[simp] theorem State.setRegs_i : (s.setRegs r).i = s.i := rfl
@[simp] theorem State.setRegs_pc : (s.setRegs r).pc = s.pc := rfl
@[simp] theorem State.setRegs_dt : (s.setRegs r).dt = s.dt := rfl
@[simp] theorem State.setRegs_st : (s.setRegs r).st = s.st := rfl
@[simp] theorem State.setRegs_stack : (s.setRegs r).stack = s.stack := rfl
@[simp] theorem State.setRegs_mem : (s.setRegs r).mem = s.mem := rfl
@[simp] theorem State.setRegs_config : (s.setRegs r).config = s.config := rfl
@[simp] theorem State.setRegs_inputs : (s.setRegs r).inputs = s.inputs := rfl
@[simp] theorem State.setRegs_inputCount : (s.setRegs r).inputCount = s.inputCount := rfl
@[simp] theorem State.setRegs_status : (s.setRegs r).status = s.status := rfl
@[simp] theorem State.setRegs_requests : (s.setRegs r).requests = s.requests := rfl
@[simp] theorem State.setRegs_nextPc : (s.setRegs r).nextPc = s.nextPc := rfl
@[simp] theorem State.setRegs_skipPc : (s.setRegs r).skipPc = s.skipPc := rfl
@[simp] theorem State.setRegs_target (p : PcOutcome) : p.target (s.setRegs r) = p.target s := by cases p <;> rfl
@[simp] theorem State.setRegs_input : (s.setRegs r).input = s.input := rfl

end

/-! ### writeI -/

section
variable (s : State) (n : Nat)

@[simp] theorem State.writeI_v : (s.writeI n).v = s.v := rfl
@[simp] theorem State.writeI_i : (s.writeI n).i = mask12 n := rfl
@[simp] theorem State.writeI_pc : (s.writeI n).pc = s.pc := rfl
@[simp] theorem State.writeI_dt : (s.writeI n).dt = s.dt := rfl
@[simp] theorem State.writeI_st : (s.writeI n).st = s.st := rfl
@[simp] theorem State.writeI_stack : (s.writeI n).stack = s.stack := rfl
@[simp] theorem State.writeI_mem : (s.writeI n).mem = s.mem := rfl
@[simp] theorem State.writeI_config : (s.writeI n).config = s.config := rfl
@[simp] theorem State.writeI_inputs : (s.writeI n).inputs = s.inputs := rfl
@[simp] theorem State.writeI_inputCount : (s.writeI n).inputCount = s.inputCount := rfl
@[simp] theorem State.writeI_status : (s.writeI n).status = s.status := rfl
@[simp] theorem State.writeI_requests : (s.writeI n).requests = s.requests := rfl
@[simp] theorem State.writeI_readV (r : Reg) : (s.writeI n).readV r = s.readV r := rfl
@[simp] theorem State.writeI_nextPc : (s.writeI n).nextPc = s.nextPc := rfl
@[simp] theorem State.writeI_skipPc : (s.writeI n).skipPc = s.skipPc := rfl
@[simp] theorem State.writeI_target (p : PcOutcome) : p.target (s.writeI n) = p.target s := by cases p <;> rfl
@[simp] theorem State.writeI_input : (s.writeI n).input = s.input := rfl

end

/-! ### writeDelay -/

section
variable (s : State) (b : Byte)

@[simp] theorem State.writeDelay_v : (s.writeDelay b).v = s.v := rfl
@[simp] theorem State.writeDelay_i : (s.writeDelay b).i = s.i := rfl
@[simp] theorem State.writeDelay_pc : (s.writeDelay b).pc = s.pc := rfl
@[simp] theorem State.writeDelay_dt : (s.writeDelay b).dt = b := rfl
@[simp] theorem State.writeDelay_st : (s.writeDelay b).st = s.st := rfl
@[simp] theorem State.writeDelay_stack : (s.writeDelay b).stack = s.stack := rfl
@[simp] theorem State.writeDelay_mem : (s.writeDelay b).mem = s.mem := rfl
@[simp] theorem State.writeDelay_config : (s.writeDelay b).config = s.config := rfl
@[simp] theorem State.writeDelay_inputs : (s.writeDelay b).inputs = s.inputs := rfl
@[simp] theorem State.writeDelay_inputCount : (s.writeDelay b).inputCount = s.inputCount := rfl
@[simp] theorem State.writeDelay_status : (s.writeDelay b).status = s.status := rfl
@[simp] theorem State.writeDelay_requests : (s.writeDelay b).requests = s.requests := rfl
@[simp] theorem State.writeDelay_readV (r : Reg) : (s.writeDelay b).readV r = s.readV r := rfl
@[simp] theorem State.writeDelay_nextPc : (s.writeDelay b).nextPc = s.nextPc := rfl
@[simp] theorem State.writeDelay_skipPc : (s.writeDelay b).skipPc = s.skipPc := rfl
@[simp] theorem State.writeDelay_target (p : PcOutcome) : p.target (s.writeDelay b) = p.target s := by cases p <;> rfl
@[simp] theorem State.writeDelay_input : (s.writeDelay b).input = s.input := rfl

end

/-! ### writeSound -/

section
variable (s : State) (b : Byte)

@[simp] theorem State.writeSound_v : (s.writeSound b).v = s.v := rfl
@[simp] theorem State.writeSound_i : (s.writeSound b).i = s.i := rfl
@[simp] theorem State.writeSound_pc : (s.writeSound b).pc = s.pc := rfl
@[simp] theorem State.writeSound_dt : (s.writeSound b).dt = s.dt := rfl
@[simp] theorem State.writeSound_st : (s.writeSound b).st = b := rfl
@[simp] theorem State.writeSound_stack : (s.writeSound b).stack = s.stack := rfl
@[simp] theorem State.writeSound_mem : (s.writeSound b).mem = s.mem := rfl
@[simp] theorem State.writeSound_config : (s.writeSound b).config = s.config := rfl
@[simp] theorem State.writeSound_inputs : (s.writeSound b).inputs = s.inputs := rfl
@[simp] theorem State.writeSound_inputCount : (s.writeSound b).inputCount = s.inputCount := rfl
@[simp] theorem State.writeSound_status : (s.writeSound b).status = s.status := rfl
@[simp] theorem State.writeSound_requests : (s.writeSound b).requests = s.requests := rfl
@[simp] theorem State.writeSound_readV (r : Reg) : (s.writeSound b).readV r = s.readV r := rfl
@[simp] theorem State.writeSound_nextPc : (s.writeSound b).nextPc = s.nextPc := rfl
@[simp] theorem State.writeSound_skipPc : (s.writeSound b).skipPc = s.skipPc := rfl
@[simp] theorem State.writeSound_target (p : PcOutcome) : p.target (s.writeSound b) = p.target s := by cases p <;> rfl
@[simp] theorem State.writeSound_input : (s.writeSound b).input = s.input := rfl

end

/-! ### setStack -/

section
variable (s : State) (l : List Word)

@[simp] theorem State.setStack_v : (s.setStack l).v = s.v := rfl
@[simp] theorem State.setStack_i : (s.setStack l).i = s.i := rfl
@[simp] theorem State.setStack_pc : (s.setStack l).pc = s.pc := rfl
@[simp] theorem State.setStack_dt : (s.setStack l).dt = s.dt := rfl
@[simp] theorem State.setStack_st : (s.setStack l).st = s.st := rfl
@[simp] theorem State.setStack_stack : (s.setStack l).stack = l := rfl
@[simp] theorem State.setStack_mem : (s.setStack l).mem = s.mem := rfl
@[simp] theorem State.setStack_config : (s.setStack l).config = s.config := rfl
@[simp] theorem State.setStack_inputs : (s.setStack l).inputs = s.inputs := rfl
@[simp] theorem State.setStack_inputCount : (s.setStack l).inputCount = s.inputCount := rfl
@[simp] theorem State.setStack_status : (s.setStack l).status = s.status := rfl
@[simp] theorem State.setStack_requests : (s.setStack l).requests = s.requests := rfl
@[simp] theorem State.setStack_readV (r : Reg) : (s.setStack l).readV r = s.readV r := rfl
@[simp] theorem State.setStack_nextPc : (s.setStack l).nextPc = s.nextPc := rfl
@[simp] theorem State.setStack_skipPc : (s.setStack l).skipPc = s.skipPc := rfl
@[simp] theorem State.setStack_target (p : PcOutcome) : p.target (s.setStack l) = p.target s := by cases p <;> rfl
@[simp] theorem State.setStack_input : (s.setStack l).input = s.input := rfl

end

/-! ### setMem -/

section
variable (s : State) (m : Memory)

@[simp] theorem State.setMem_v : (s.setMem m).v = s.v := rfl
@[simp] theorem State.setMem_i : (s.setMem m).i = s.i := rfl
@[simp] theorem State.setMem_pc : (s.setMem m).pc = s.pc := rfl
@[simp] theorem State.setMem_dt : (s.setMem m).dt = s.dt := rfl
@[simp] theorem State.setMem_st : (s.setMem m).st = s.st := rfl
@[simp] theorem State.setMem_stack : (s.setMem m).stack = s.stack := rfl
@[simp] theorem State.setMem_mem : (s.setMem m).mem = m := rfl
@[simp] theorem State.setMem_config : (s.setMem m).config = s.config := rfl
@[simp] theorem State.setMem_inputs : (s.setMem m).inputs = s.inputs := rfl
@[simp] theorem State.setMem_inputCount : (s.setMem m).inputCount = s.inputCount := rfl
@[simp] theorem State.setMem_status : (s.setMem m).status = s.status := rfl
@[simp] theorem State.setMem_requests : (s.setMem m).requests = s.requests := rfl
@[simp] theorem State.setMem_readV (r : Reg) : (s.setMem m).readV r = s.readV r := rfl
@[simp] theorem State.setMem_nextPc : (s.setMem m).nextPc = s.nextPc := rfl
@[simp] theorem State.setMem_skipPc : (s.setMem m).skipPc = s.skipPc := rfl
@[simp] theorem State.setMem_target (p : PcOutcome) : p.target (s.setMem m) = p.target s := by cases p <;> rfl
@[simp] theorem State.setMem_input : (s.setMem m).input = s.input := rfl

end

/-! ### emit -/

section
variable (s : State) (r : DisplayRequest)

@[simp] theorem State.emit_v : (s.emit r).v = s.v := rfl
@[simp] theorem State.emit_i : (s.emit r).i = s.i := rfl
@[simp] theorem State.emit_pc : (s.emit r).pc = s.pc := rfl
@[simp] theorem State.emit_dt : (s.emit r).dt = s.dt := rfl
@[simp] theorem State.emit_st : (s.emit r).st = s.st := rfl
@[simp] theorem State.emit_stack : (s.emit r).stack = s.stack := rfl
@[simp] theorem State.emit_mem : (s.emit r).mem = s.mem := rfl
@[simp] theorem State.emit_config : (s.emit r).config = s.config := rfl
@[simp] theorem State.emit_inputs : (s.emit r).inputs = s.inputs := rfl
@[simp] theorem State.emit_inputCount : (s.emit r).inputCount = s.inputCount := rfl
@[simp] theorem State.emit_status : (s.emit r).status = s.status := rfl
@[simp] theorem State.emit_requests : (s.emit r).requests = s.requests ++ [r] := rfl
@[simp] theorem State.emit_readV (k : Reg) : (s.emit r).readV k = s.readV k := rfl
@[simp] theorem State.emit_nextPc : (s.emit r).nextPc = s.nextPc := rfl
@[simp] theorem State.emit_skipPc : (s.emit r).skipPc = s.skipPc := rfl
@[simp] theorem State.emit_target (p : PcOutcome) : p.target (s.emit r) = p.target s := by cases p <;> rfl
@[simp] theorem State.emit_input : (s.emit r).input = s.input := rfl

end

/-! ### consumeInput -/

section
variable (s : State)

@[simp] theorem State.consumeInput_v : (s.consumeInput).v = s.v := rfl
@[simp] theorem State.consumeInput_i : (s.consumeInput).i = s.i := rfl
@[simp] theorem State.consumeInput_pc : (s.consumeInput).pc = s.pc := rfl
@[simp] theorem State.consumeInput_dt : (s.consumeInput).dt = s.dt := rfl
@[simp] theorem State.consumeInput_st : (s.consumeInput).st = s.st := rfl
@[simp] theorem State.consumeInput_stack : (s.consumeInput).stack = s.stack := rfl
@[simp] theorem State.consumeInput_mem : (s.consumeInput).mem = s.mem := rfl
@[simp] theorem State.consumeInput_config : (s.consumeInput).config = s.config := rfl
@[simp] theorem State.consumeInput_inputs : (s.consumeInput).inputs = s.inputs.tail := rfl
@[simp] theorem State.consumeInput_inputCount : (s.consumeInput).inputCount = s.inputCount + 1 := rfl
@[simp] theorem State.consumeInput_status : (s.consumeInput).status = s.status := rfl
@[simp] theorem State.consumeInput_requests : (s.consumeInput).requests = s.requests := rfl
@[simp] theorem State.consumeInput_readV (r : Reg) : (s.consumeInput).readV r = s.readV r := rfl
@[simp] theorem State.consumeInput_nextPc : (s.consumeInput).nextPc = s.nextPc := rfl
@[simp] theorem State.consumeInput_skipPc : (s.consumeInput).skipPc = s.skipPc := rfl
@[simp] theorem State.consumeInput_target (p : PcOutcome) : p.target (s.consumeInput) = p.target s := by cases p <;> rfl

end

/-! ### withInputs -/

section
variable (s : State) (l : List StepInput) (n : Nat)

@[simp] theorem State.withInputs_v : (s.withInputs l n).v = s.v := rfl
@[simp] theorem State.withInputs_i : (s.withInputs l n).i = s.i := rfl
@[simp] theorem State.withInputs_pc : (s.withInputs l n).pc = s.pc := rfl
@[simp] theorem State.withInputs_dt : (s.withInputs l n).dt = s.dt := rfl
@[simp] theorem State.withInputs_st : (s.withInputs l n).st = s.st := rfl
@[simp] theorem State.withInputs_stack : (s.withInputs l n).stack = s.stack := rfl
@[simp] theorem State.withInputs_mem : (s.withInputs l n).mem = s.mem := rfl
@[simp] theorem State.withInputs_config : (s.withInputs l n).config = s.config := rfl
@[simp] theorem State.withInputs_inputs : (s.withInputs l n).inputs = l := rfl
@[simp] theorem State.withInputs_inputCount : (s.withInputs l n).inputCount = n := rfl
@[simp] theorem State.withInputs_status : (s.withInputs l n).status = s.status := rfl
@[simp] theorem State.withInputs_requests : (s.withInputs l n).requests = s.requests := rfl
@[simp] theorem State.withInputs_readV (r : Reg) : (s.withInputs l n).readV r = s.readV r := rfl
@[simp] theorem State.withInputs_nextPc : (s.withInputs l n).nextPc = s.nextPc := rfl
@[simp] theorem State.withInputs_skipPc : (s.withInputs l n).skipPc = s.skipPc := rfl
@[simp] theorem State.withInputs_target (p : PcOutcome) : p.target (s.withInputs l n) = p.target s := by cases p <;> rfl

end

/-! ### tickTimers -/

section
variable (s : State)

@[simp] theorem State.tickTimers_v : (s.tickTimers).v = s.v := rfl
@[simp] theorem State.tickTimers_i : (s.tickTimers).i = s.i := rfl
@[simp] theorem State.tickTimers_pc : (s.tickTimers).pc = s.pc := rfl
@[simp] theorem State.tickTimers_dt : (s.tickTimers).dt = if 0 < s.dt.toNat then s.dt - 1 else s.dt := rfl
@[simp] theorem State.tickTimers_st : (s.tickTimers).st = if 0 < s.st.toNat then s.st - 1 else s.st := rfl
@[simp] theorem State.tickTimers_stack : (s.tickTimers).stack = s.stack := rfl
@[simp] theorem State.tickTimers_mem : (s.tickTimers).mem = s.mem := rfl
@[simp] theorem State.tickTimers_config : (s.tickTimers).config = s.config := rfl
@[simp] theorem State.tickTimers_inputs : (s.tickTimers).inputs = s.inputs := rfl
@[simp] theorem State.tickTimers_inputCount : (s.tickTimers).inputCount = s.inputCount := rfl
@[simp] theorem State.tickTimers_status : (s.tickTimers).status = s.status := rfl
@[simp] theorem State.tickTimers_requests : (s.tickTimers).requests = s.requests := rfl
@[simp] theorem State.tickTimers_readV (r : Reg) : (s.tickTimers).readV r = s.readV r := rfl
@[simp] theorem State.tickTimers_nextPc : (s.tickTimers).nextPc = s.nextPc := rfl
@[simp] theorem State.tickTimers_skipPc : (s.tickTimers).skipPc = s.skipPc := rfl
@[simp] theorem State.tickTimers_target (p : PcOutcome) : p.target (s.tickTimers) = p.target s := by cases p <;> rfl
@[simp] theorem State.tickTimers_input : (s.tickTimers).input = s.input := rfl

end

/-! ### tickMany -/

section
variable (s : State) (n : Nat)

@[simp] theorem State.tickMany_v : (s.tickMany n).v = s.v := rfl
@[simp] theorem State.tickMany_i : (s.tickMany n).i = s.i := rfl
@[simp] theorem State.tickMany_pc : (s.tickMany n).pc = s.pc := rfl
@[simp] theorem State.tickMany_dt : (s.tickMany n).dt = countDown s.dt n := rfl
@[simp] theorem State.tickMany_st : (s.tickMany n).st = countDown s.st n := rfl
@[simp] theorem State.tickMany_stack : (s.tickMany n).stack = s.stack := rfl
@[simp] theorem State.tickMany_mem : (s.tickMany n).mem = s.mem := rfl
@[simp] theorem State.tickMany_config : (s.tickMany n).config = s.config := rfl
@[simp] theorem State.tickMany_inputs : (s.tickMany n).inputs = s.inputs := rfl
@[simp] theorem State.tickMany_inputCount : (s.tickMany n).inputCount = s.inputCount := rfl
@[simp] theorem State.tickMany_status : (s.tickMany n).status = s.status := rfl
@[simp] theorem State.tickMany_requests : (s.tickMany n).requests = s.requests := rfl
@[simp] theorem State.tickMany_readV (r : Reg) : (s.tickMany n).readV r = s.readV r := rfl
@[simp] theorem State.tickMany_nextPc : (s.tickMany n).nextPc = s.nextPc := rfl
@[simp] theorem State.tickMany_skipPc : (s.tickMany n).skipPc = s.skipPc := rfl
@[simp] theorem State.tickMany_target (p : PcOutcome) : p.target (s.tickMany n) = p.target s := by cases p <;> rfl
@[simp] theorem State.tickMany_input : (s.tickMany n).input = s.input := rfl

end

/-! ### completed -/

section
variable (s : State) (o : PcOutcome)

@[simp] theorem State.completed_v : (s.completed o).v = s.v := rfl
@[simp] theorem State.completed_i : (s.completed o).i = s.i := rfl
@[simp] theorem State.completed_pc : (s.completed o).pc = o.target s := rfl
@[simp] theorem State.completed_dt : (s.completed o).dt = s.dt := rfl
@[simp] theorem State.completed_st : (s.completed o).st = s.st := rfl
@[simp] theorem State.completed_stack : (s.completed o).stack = s.stack := rfl
@[simp] theorem State.completed_mem : (s.completed o).mem = s.mem := rfl
@[simp] theorem State.completed_config : (s.completed o).config = s.config := rfl
@[simp] theorem State.completed_inputs : (s.completed o).inputs = s.inputs := rfl
@[simp] theorem State.completed_inputCount : (s.completed o).inputCount = s.inputCount := rfl
@[simp] theorem State.completed_status : (s.completed o).status = .ok := rfl
@[simp] theorem State.completed_requests : (s.completed o).requests = s.requests := rfl
@[simp] theorem State.completed_readV (r : Reg) : (s.completed o).readV r = s.readV r := rfl
@[simp] theorem State.completed_input : (s.completed o).input = s.input := rfl

end

/-! ### waiting -/

section
variable (s : State)

@[simp] theorem State.waiting_v : (s.waiting).v = s.v := rfl
@[simp] theorem State.waiting_i : (s.waiting).i = s.i := rfl
@[simp] theorem State.waiting_pc : (s.waiting).pc = s.pc := rfl
@[simp] theorem State.waiting_dt : (s.waiting).dt = s.dt := rfl
@[simp] theorem State.waiting_st : (s.waiting).st = s.st := rfl
@[simp] theorem State.waiting_stack : (s.waiting).stack = s.stack := rfl
@[simp] theorem State.waiting_mem : (s.waiting).mem = s.mem := rfl
@[simp] theorem State.waiting_config : (s.waiting).config = s.config := rfl
@[simp] theorem State.waiting_inputs : (s.waiting).inputs = s.inputs := rfl
@[simp] theorem State.waiting_inputCount : (s.waiting).inputCount = s.inputCount := rfl
@[simp] theorem State.waiting_status : (s.waiting).status = .waitingForKey := rfl
@[simp] theorem State.waiting_requests : (s.waiting).requests = s.requests := rfl
@[simp] theorem State.waiting_readV (r : Reg) : (s.waiting).readV r = s.readV r := rfl
@[simp] theorem State.waiting_nextPc : (s.waiting).nextPc = s.nextPc := rfl
@[simp] theorem State.waiting_skipPc : (s.waiting).skipPc = s.skipPc := rfl
@[simp] theorem State.waiting_target (p : PcOutcome) : p.target (s.waiting) = p.target s := by cases p <;> rfl
@[simp] theorem State.waiting_input : (s.waiting).input = s.input := rfl

end

/-! ### Registers -/

theorem State.writeV_readV (s : State) (x r : Reg) (b : Byte) :
    (s.writeV x b).readV r = if r = x then b else s.readV r := by
  by_cases h : r = x
  · subst h; simp [State.readV]
  · have : ¬ x.val = r.val := fun e => h (Fin.ext e.symm)
    simp [State.readV, this, h]

@[simp] theorem State.writeV_readV_same (s : State) (x : Reg) (b : Byte) : (s.writeV x b).readV x = b := by
  simp [State.writeV_readV]

theorem State.writeResultAndFlag_readV (s : State) (x r : Reg) (b : Byte) (f : Bool) :
    (s.writeResultAndFlag x b f).readV r = if r = VF then flagByte f else if r = x then b else s.readV r := by
  simp [State.writeResultAndFlag, State.writeV_readV]

/-! ### PC outcomes -/

@[simp] theorem PcOutcome.next_target (s : State) : PcOutcome.next.target s = s.nextPc := rfl

@[simp] theorem PcOutcome.skip_target (s : State) : PcOutcome.skip.target s = s.skipPc := rfl

@[simp] theorem PcOutcome.set_target (s : State) (t : Nat) : (PcOutcome.set t).target s = mask12 t := rfl

/-! ### Reset -/

@[simp] theorem State.resetWith_readV (c : Config) (r : Reg) : (State.resetWith c).readV r = 0 := by
  simp [State.readV, State.resetWith]

end Sys2Proof.Machine
end

