-- ==== Sys2Proof/Laws/Ops.lean ====
section
/-! SUPPORT. What each shared operation can do, said once. -/

namespace Sys2Proof.Machine

@[simp] theorem mask12_toNat (n : Nat) : (mask12 n).toNat = n % 4096 := by
  simp only [mask12, BitVec.toNat_ofNat]; omega

theorem mask12_lt (n : Nat) : (mask12 n).toNat < 4096 := by simp; omega

/-- A value below 4096 is stored as it is. -/
theorem mask12_of_lt {w : Word} (h : w.toNat < 4096) : mask12 w.toNat = w := by
  apply BitVec.eq_of_toNat_eq; simp; omega

theorem State.nextPc_toNat (s : State) : s.nextPc.toNat = (s.pc.toNat + 2) % 4096 := by simp [State.nextPc]

theorem State.skipPc_toNat (s : State) : s.skipPc.toNat = (s.pc.toNat + 4) % 4096 := by simp [State.skipPc]

/-- Every PC outcome stays in 0..4095. -/
theorem PcOutcome.target_lt (o : PcOutcome) (s : State) : (o.target s).toNat < 4096 := by
  cases o <;> exact mask12_lt _

theorem clampByte_toInt (n : Int) : ((clampByte n).toNat : Int) = max 0 (min n 255) := by
  rw [clampByte, BitVec.toNat_ofNat]; omega

theorem complete_eq (o : PcOutcome) (s : State) : complete o s = .next (s.completed o) := rfl

@[simp] theorem complete_eq_next {o : PcOutcome} {s t : State} : complete o s = .next t ↔ s.completed o = t := by
  simp [complete]

@[simp] theorem complete_ne_fault (o : PcOutcome) (s : State) (e : Fault) : complete o s ≠ .fault e := by
  simp [complete]

@[simp] theorem complete_ne_refused (o : PcOutcome) (s : State) (r : Refusal) : complete o s ≠ .refused r := by
  simp [complete]

/-- The range check lets the operation run exactly when every byte exists. -/
theorem withRange_fits {base len : Nat} (h : len = 0 ∨ base + len ≤ 4096) (k : Outcome) : withRange base len k = k :=
  if_pos h

/-- Past the end of memory nothing runs, and the lowest offending address is reported. -/
theorem withRange_past {base len : Nat} (h0 : len ≠ 0) (h : 4096 < base + len) (k : Outcome) :
    withRange base len k = .fault (.outOfBounds (max base 4096)) := by
  unfold withRange
  rw [if_neg (by simp only [memSize]; omega)]; rfl

theorem withRange_cases (base len : Nat) (k : Outcome) :
    ((len = 0 ∨ base + len ≤ 4096) ∧ withRange base len k = k) ∨
      (len ≠ 0 ∧ 4096 < base + len ∧ withRange base len k = .fault (.outOfBounds (max base 4096))) := by
  by_cases h : len = 0 ∨ base + len ≤ 4096
  · exact .inl ⟨h, withRange_fits h k⟩
  · rw [not_or] at h
    exact .inr ⟨h.1, by omega, withRange_past h.1 (by omega) k⟩

theorem pushStack_of_lt {l : List Word} (h : l.length < 12) (w : Word) : pushStack l w = some (w :: l) :=
  if_neg (by simp only [stackDepth]; omega)

theorem pushStack_of_ge {l : List Word} (h : 12 ≤ l.length) (w : Word) : pushStack l w = none := if_pos h

@[simp] theorem popStack_nil : popStack [] = none := rfl

@[simp] theorem popStack_cons (w : Word) (l : List Word) : popStack (w :: l) = some (w, l) := rfl

/-- Registers from `k` on take the bytes in order; the others keep their value. -/
theorem fillRegs_getElem : ∀ (bs : List Byte) (v : Vector Byte 16) (k j : Nat) (hj : j < 16),
    (fillRegs v k bs)[j] = if k ≤ j ∧ j < k + bs.length then bs.getD (j - k) 0#8 else v[j]
  | [], v, k, j, hj => by
    rw [fillRegs, if_neg (by simp only [List.length_nil]; omega)]
  | b :: bs, v, k, j, hj => by
    rw [fillRegs, fillRegs_getElem bs _ _ _ hj]
    simp only [List.length_cons, Vector.getElem_setIfInBounds]
    rcases Nat.lt_trichotomy j k with h | h | h
    · rw [if_neg (by omega), if_neg (by omega), if_neg (by omega)]
    · subst h
      rw [if_neg (by omega), if_pos rfl, if_pos (by omega)]
      simp
    · obtain ⟨d, rfl⟩ : ∃ d, j = k + 1 + d := ⟨j - (k + 1), by omega⟩
      have e1 : k + 1 + d - (k + 1) = d := by omega
      have e2 : k + 1 + d - k = d + 1 := by omega
      by_cases hd : d < bs.length
      · rw [if_pos (by omega), if_pos (by omega), e1, e2, List.getD_cons_succ]
      · rw [if_neg (by omega), if_neg (by omega), if_neg (by omega)]

/-- A counter after `n` ticks: floored at zero. -/
theorem countDown_toNat (c : Byte) (n : Nat) : (countDown c n).toNat = c.toNat - n := by
  unfold countDown
  split
  · rename_i h; simp [h]
  · have := c.isLt
    simp only [BitVec.toNat_ofNat]; omega

/-- The fetch succeeds exactly when both bytes exist, and is big-endian. -/
theorem fetch_of_lt {s : State} (h : s.pc.toNat + 1 < 4096) :
    fetch s = .ok (opcodeOfBytes (s.mem.read s.pc.toNat) (s.mem.read (s.pc.toNat + 1))) := by
  unfold fetch memRead
  rw [if_pos (show s.pc.toNat < memSize by simp only [memSize]; omega), if_pos h]

theorem fetch_of_last {s : State} (h : s.pc.toNat = 4095) : fetch s = .error (.outOfBounds 4096) := by
  unfold fetch memRead
  rw [if_pos (show s.pc.toNat < memSize by simp only [memSize]; omega),
    if_neg (show ¬ s.pc.toNat + 1 < memSize by simp only [memSize]; omega), h]

@[simp] theorem closeStep_eq_next {o : Outcome} {t : State} :
    closeStep o = .next t ↔ ∃ u, o = .next u ∧ u.consumeInput = t := by
  cases o <;> simp [closeStep]

@[simp] theorem closeStep_eq_fault {o : Outcome} {e : Fault} : closeStep o = .fault e ↔ o = .fault e := by
  cases o <;> simp [closeStep]

/-- Everything a step that goes on has done: ticks, a fetch that succeeded, a known instruction, its meaning, and the
use of its input. -/
theorem step_eq_next {s t : State} (h : step s = .next t) :
    ∃ w i u, fetch s.beginStep = .ok w ∧ decode w = .instr i ∧ exec i s.beginStep = .next u ∧ t = u.consumeInput := by
  unfold step raise at h
  split at h
  · cases h
  · rename_i w hw
    split at h
    · cases h
    · rename_i i hi
      obtain ⟨u, hu, rfl⟩ := closeStep_eq_next.1 h
      exact ⟨w, i, u, hw, hi, hu, rfl⟩

/-- A step on a known instruction is its meaning, after the ticks, with the input used up. -/
theorem step_of_decode {s : State} {w : Word} {i : Instr} (hw : fetch s.beginStep = .ok w)
    (hi : decode w = .instr i) : step s = closeStep (exec i s.beginStep) := by
  unfold step; rw [hw]; simp only [hi]

end Sys2Proof.Machine
end

