-- ==== Sys2Proof/Laws/Frame.lean ====
section
/-! SUPPORT. How to show a frame, and what the operands and the storing operation are. -/

namespace Sys2Proof.Machine

/-- A frame is one fact per component. -/
theorem onlyChanges_iff {s t : State} {cs : List Component} :
    OnlyChanges s t cs ↔
      (∀ r, .v r ∉ cs → t.readV r = s.readV r) ∧ (.i ∉ cs → t.i = s.i) ∧ (.pc ∉ cs → t.pc = s.pc) ∧
      (.dt ∉ cs → t.dt = s.dt) ∧ (.st ∉ cs → t.st = s.st) ∧ (.stack ∉ cs → t.stack = s.stack) ∧
      (∀ a, .mem a ∉ cs → t.mem.read a = s.mem.read a) ∧ (.config ∉ cs → t.config = s.config) ∧
      (.inputs ∉ cs → t.inputs = s.inputs) ∧ (.inputCount ∉ cs → t.inputCount = s.inputCount) ∧
      (.status ∉ cs → t.status = s.status) ∧ (.requests ∉ cs → t.requests = s.requests) := by
  constructor
  · intro h
    exact ⟨fun r => h (.v r), h .i, h .pc, h .dt, h .st, h .stack, fun a => h (.mem a), h .config, h .inputs,
      h .inputCount, h .status, h .requests⟩
  · rintro ⟨hv, hi, hpc, hdt, hst, hstack, hmem, hconfig, hinputs, hcount, hstatus, hrequests⟩ c
    cases c with
    | v r => exact hv r
    | mem a => exact hmem a
    | i => exact hi
    | pc => exact hpc
    | dt => exact hdt
    | st => exact hst
    | stack => exact hstack
    | config => exact hconfig
    | inputs => exact hinputs
    | inputCount => exact hcount
    | status => exact hstatus
    | requests => exact hrequests

@[simp] theorem mem_memRange {a n : Nat} {c : Component} :
    c ∈ memRange a n ↔ ∃ k, (a ≤ k ∧ k < a + n) ∧ .mem k = c := by
  simp [memRange, List.mem_range'_1]

@[simp] theorem mem_regRange {x : Reg} {c : Component} : c ∈ regRange x ↔ ∃ r, r ≤ x ∧ .v r = c := by
  simp [regRange]

/-- The numeric value of the opcode two bytes form. -/
theorem opcodeOfBytes_toNat (hi lo : Byte) : (opcodeOfBytes hi lo).toNat = hi.toNat * 256 + lo.toNat := by
  rw [opcodeOfBytes, BitVec.toNat_append, Nat.shiftLeft_eq, Nat.mul_comm, or_eq_add 8 _ _ lo.isLt]

/-- The clock does not change what is fetched. -/
@[simp] theorem fetch_beginStep (s : State) : fetch s.beginStep = fetch s := rfl

theorem State.keyNumber_val (s : State) (x : Reg) : (s.keyNumber x).val = (s.readV x).toNat % 16 := by
  simp [State.keyNumber]

@[simp] theorem State.regsUpTo_length (s : State) (x : Reg) : (s.regsUpTo x).length = x.val + 1 := by
  have := x.isLt
  simp only [State.regsUpTo, List.length_take, Vector.length_toList]; omega

/-- The `k`-th of V[0] to V[x] is V[k]. -/
theorem State.regsUpTo_getD (s : State) (x : Reg) {k : Nat} (hk : k ≤ x.val) :
    (s.regsUpTo x).getD k 0#8 = s.readV ⟨k, by omega⟩ := by
  have := x.isLt
  simp only [State.regsUpTo, List.getD_eq_getElem?_getD]
  rw [List.getElem?_take_of_lt (by omega)]
  simp [State.readV, show k < 16 by omega]

/-- The bytes at I. -/
theorem State.bytesAtI_eq (s : State) (n : Nat) :
    s.bytesAtI n = (List.range n).map fun k => s.mem.read (s.i.toNat + k) := Memory.readBytes_eq_map _ _ _

@[simp] theorem State.bytesAtI_length (s : State) (n : Nat) : (s.bytesAtI n).length = n := by simp [State.bytesAtI]

/-- FX65's new registers: V[0] to V[x] hold the bytes at I, the others what they held. -/
theorem State.fillFromI_readV (s : State) (x r : Reg) :
    (s.setRegs (fillRegs s.v 0 (s.bytesAtI (x.val + 1)))).readV r =
      if r ≤ x then s.mem.read (s.i.toNat + r.val) else s.readV r := by
  have h := fillRegs_getElem (s.bytesAtI (x.val + 1)) s.v 0 r.val r.isLt
  simp only [State.readV, State.setRegs_v, Fin.getElem_fin, h, State.bytesAtI_length, Nat.zero_le, true_and,
    Nat.zero_add, Nat.sub_zero]
  by_cases hr : r ≤ x
  · have hr' : r.val ≤ x.val := hr
    rw [if_pos (by omega), if_pos hr, State.bytesAtI_eq]
    simp [show r.val < x.val + 1 by omega]
  · have hr' : ¬ r.val ≤ x.val := hr
    rw [if_neg (by omega), if_neg hr]

/-- Everything a storing instruction that goes on has done. -/
theorem storeAtI_eq_next {bs : List Byte} {s t : State} (h : storeAtI bs s = .next t) :
    (bs.length = 0 ∨ s.i.toNat + bs.length ≤ 4096) ∧
      t = (s.setMem (s.mem.writeBytes s.i.toNat bs)).completed .next := by
  unfold storeAtI at h
  rcases withRange_cases s.i.toNat bs.length (complete .next (s.setMem (s.mem.writeBytes s.i.toNat bs))) with
    ⟨hfit, he⟩ | ⟨-, -, he⟩
  · rw [he, complete_eq_next] at h; exact ⟨hfit, h.symm⟩
  · rw [he] at h; cases h

theorem storeAtI_fits {bs : List Byte} {s : State} (h : s.i.toNat + bs.length ≤ 4096) :
    storeAtI bs s = .next ((s.setMem (s.mem.writeBytes s.i.toNat bs)).completed .next) :=
  withRange_fits (.inr h) _

theorem storeAtI_past {bs : List Byte} {s : State} (h0 : bs.length ≠ 0) (h : 4096 < s.i.toNat + bs.length) :
    storeAtI bs s = .fault (.outOfBounds (max s.i.toNat 4096)) := withRange_past h0 h _

/-! The rows of the table of PC values. -/

theorem tabledPc_jp (addr : Addr) (s : State) : tabledPc (.jp addr) s = addr.toNat := rfl

theorem tabledPc_call (addr : Addr) (s : State) : tabledPc (.call addr) s = addr.toNat := rfl

theorem tabledPc_jpV0 (addr : Addr) (x : Reg) (s : State) :
    tabledPc (.jpV0 addr x) s = (addr.toNat + (s.jumpOffset x).toNat) % 4096 := rfl

theorem tabledPc_ret {s : State} {w : Word} {l : List Word} (hs : s.stack = w :: l) :
    tabledPc .ret s = w.toNat % 4096 := by
  change (s.stack.headD 0#16).toNat % 4096 = _
  rw [hs]; rfl

theorem tabledPc_of_not_setsPc {i : Instr} (hi : setsPc i = false) (s : State) :
    tabledPc i s = if skipHolds i s then s.skipPc.toNat else s.nextPc.toNat := by
  rw [s.skipPc_toNat, s.nextPc_toNat]
  cases i <;> first | rfl | cases hi

theorem skipHolds_of_not_isSkip {i : Instr} (hi : isSkip i = false) (s : State) : skipHolds i s = false := by
  cases i <;> first | rfl | cases hi

/-- FX33 stores the digits of V[x]. -/
theorem storedByte_ldB (x : Reg) (s : State) (k : Nat) : storedByte (.ldB x) s k = (bcdDigits (s.readV x))[k]? := rfl

/-- FX55 stores V[0] to V[x]. -/
theorem storedByte_stRegs (x : Reg) (s : State) (k : Nat) : storedByte (.stRegs x) s k = (s.regsUpTo x)[k]? := by
  by_cases hk : k ≤ x.val
  · have h16 : k < 16 := by omega
    simp [storedByte, State.regsUpTo, State.readV, hk, h16]
  · simp [storedByte, State.regsUpTo, hk]

end Sys2Proof.Machine
end

