-- ==== Sys2Proof/Laws/Exec.lean ====
section
/-! SUPPORT. What any meaning that goes on can have done, said once for all instructions. Rules about the whole machine
are case analyses of `Effect`, not of the 34 meanings. -/

namespace Sys2Proof.Machine

/-- The shapes of a completed meaning: every one but the wait is `completed` over the instruction's writes. -/
inductive Effect (i : Instr) (s t : State) : Prop where
  | waits (x : Reg) (hi : i = .ldVxK x) (hk : s.input.keyPress = none) (ht : t = s.waiting)
  | takesKey (x : Reg) (k : Key) (hi : i = .ldVxK x) (hk : s.input.keyPress = some k)
      (ht : t = (s.writeV x (BitVec.ofNat 8 k.val)).completed .next)
  | skips (hi : isSkip i = true) (ht : t = s.completed (if skipHolds i s then .skip else .next))
  | jumps (n : Nat) (hi : (∃ addr, i = .jp addr) ∨ ∃ addr x, i = .jpV0 addr x) (hn : n % 4096 = tabledPc i s)
      (ht : t = s.completed (.set n))
  | returns (w : Word) (l : List Word) (hi : i = .ret) (hs : s.stack = w :: l)
      (ht : t = (s.setStack l).completed (.set w.toNat))
  | calls (addr : Addr) (hi : i = .call addr) (hl : s.stack.length < 12)
      (ht : t = (s.setStack (s.nextPc :: s.stack)).completed (.set addr.toNat))
  | setsReg (x : Reg) (b : Byte) (hi : writesReg i x = true) (hf : setsFlag s.config i = false)
      (ht : t = (s.writeV x b).completed .next)
  | setsRegAndFlag (x : Reg) (b : Byte) (f : Bool) (hi : writesReg i x = true) (hf : setsFlag s.config i = true)
      (ht : t = (s.writeResultAndFlag x b f).completed .next)
  | setsI (n : Nat) (hi : (∃ addr, i = .ldI addr) ∨ (∃ x, i = .addI x ∧ s.config.iOverflowSetsVf = false) ∨ ∃ x, i = .ldF x)
      (ht : t = (s.writeI n).completed .next)
  | setsIAndFlag (x : Reg) (n : Nat) (f : Bool) (hi : i = .addI x) (hc : s.config.iOverflowSetsVf = true)
      (ht : t = ((s.writeI n).writeV VF (flagByte f)).completed .next)
  | storesDigits (x : Reg) (hi : i = .ldB x) (hr : s.i.toNat + 3 ≤ 4096)
      (ht : t = (s.setMem (s.mem.writeBytes s.i.toNat (bcdDigits (s.readV x)))).completed .next)
  | storesRegs (x : Reg) (hi : i = .stRegs x) (hr : s.i.toNat + (x.val + 1) ≤ 4096)
      (ht : t = (s.setMem (s.mem.writeBytes s.i.toNat (s.regsUpTo x))).completed .next)
  | loadsRegs (x : Reg) (hi : i = .ldRegs x) (hr : s.i.toNat + (x.val + 1) ≤ 4096)
      (ht : t = (s.setRegs (fillRegs s.v 0 (s.bytesAtI (x.val + 1)))).completed .next)
  | clears (hi : i = .cls) (ht : t = (s.emit .clear).completed .next)
  | draws (x y : Reg) (n : Rows) (hi : i = .drw x y n) (hr : n.val = 0 ∨ s.i.toNat + n.val ≤ 4096)
      (ht : t = ((s.emit (.draw (s.readV x) (s.readV y) (s.bytesAtI n.val))).writeV VF
        (flagByte s.input.collision)).completed .next)
  | setsDelay (x : Reg) (hi : i = .ldDtVx x) (ht : t = (s.writeDelay (s.readV x)).completed .next)
  | setsSound (x : Reg) (hi : i = .ldStVx x) (ht : t = (s.writeSound (s.readV x)).completed .next)

theorem withRange_eq_next {base len : Nat} {k : Outcome} {t : State} (h : withRange base len k = .next t) :
    (len = 0 ∨ base + len ≤ 4096) ∧ k = .next t := by
  rcases withRange_cases base len k with ⟨hfit, he⟩ | ⟨-, -, he⟩
  · exact ⟨hfit, he ▸ h⟩
  · rw [he] at h; cases h

/-- A meaning that goes on has one of these effects. -/
theorem effect_of_exec {i : Instr} {s t : State} (h : exec i s = .next t) : Effect i s t := by
  cases i with
  | ret =>
    cases hs : s.stack with
    | nil => simp [exec, execRet, hs, raise] at h
    | cons w l =>
      simp only [exec, execRet, hs, popStack_cons, complete_eq_next] at h
      exact .returns w l rfl hs h.symm
  | call addr =>
    simp only [exec, execCall] at h
    by_cases hl : s.stack.length < 12
    · rw [pushStack_of_lt hl] at h
      exact .calls addr rfl hl (complete_eq_next.1 h).symm
    · rw [pushStack_of_ge (by omega)] at h; cases h
  | ldB x =>
    obtain ⟨hr, ht⟩ := storeAtI_eq_next (bs := bcdDigits (s.readV x)) h
    have hl : (bcdDigits (s.readV x)).length = 3 := rfl
    exact .storesDigits x rfl (by omega) ht
  | stRegs x =>
    obtain ⟨hr, ht⟩ := storeAtI_eq_next (bs := s.regsUpTo x) h
    have hl := s.regsUpTo_length x
    exact .storesRegs x rfl (by omega) ht
  | ldRegs x =>
    obtain ⟨hr, ht⟩ := withRange_eq_next h
    exact .loadsRegs x rfl (by omega) (complete_eq_next.1 ht).symm
  | drw x y n =>
    obtain ⟨hr, ht⟩ := withRange_eq_next h
    exact .draws x y n rfl hr (complete_eq_next.1 ht).symm
  | ldVxK x =>
    simp only [exec, execLdVxK] at h
    split at h
    · rename_i hk; cases h; exact .waits x rfl hk rfl
    · rename_i k hk; cases h; exact .takesKey x k rfl hk rfl
  | addI x =>
    simp only [exec, execAddI] at h
    cases hc : s.config.iOverflowSetsVf with
    | false => rw [hc] at h; cases h; exact .setsI _ (.inr (.inl ⟨x, rfl, hc⟩)) rfl
    | true => rw [hc] at h; cases h; exact .setsIAndFlag x _ _ rfl hc rfl
  | ldI addr => cases h; exact .setsI _ (.inl ⟨addr, rfl⟩) rfl
  | ldF x => cases h; exact .setsI _ (.inr (.inr ⟨x, rfl⟩)) rfl
  | cls => cases h; exact .clears rfl rfl
  | ldDtVx x => cases h; exact .setsDelay x rfl rfl
  | ldStVx x => cases h; exact .setsSound x rfl rfl
  | jp addr => cases h; exact .jumps _ (.inl ⟨addr, rfl⟩) (Nat.mod_eq_of_lt addr.isLt) rfl
  | jpV0 addr x => cases h; exact .jumps _ (.inr ⟨addr, x, rfl⟩) rfl rfl
  | seImm | sneImm | seReg | sneReg => cases h; exact .skips rfl rfl
  | skp x | sknp x =>
    cases h
    refine .skips rfl ?_
    simp only [skipHolds, State.keyIsDown, State.keyNumber_val]
    rfl
  | ldImm x | addImm x | ldReg x | or x | and x | xor x | rnd x | ldVxDt x =>
    cases h; exact .setsReg x _ (by simp [writesReg]) rfl rfl
  | addReg x | sub x | shr x | subn x | shl x =>
    cases h; exact .setsRegAndFlag x _ _ (by simp [writesReg]) rfl rfl

/-- The errors a meaning can raise, and when. -/
theorem fault_of_exec {i : Instr} {s : State} {e : Fault} (h : exec i s = .fault e) :
    (i = .ret ∧ s.stack = [] ∧ e = .stackUnderflow) ∨
      (∃ addr, i = .call addr ∧ 12 ≤ s.stack.length ∧ e = .stackOverflow) ∨
      (∃ len, ((∃ x y n, i = .drw x y n ∧ len = n.val) ∨ (∃ x, i = .ldB x ∧ len = 3) ∨
          (∃ x, i = .stRegs x ∧ len = x.val + 1) ∨ (∃ x, i = .ldRegs x ∧ len = x.val + 1)) ∧
        len ≠ 0 ∧ 4096 < s.i.toNat + len ∧ e = .outOfBounds (max s.i.toNat 4096)) := by
  have range : ∀ {len : Nat} {o : PcOutcome} {u : State}, withRange s.i.toNat len (complete o u) = .fault e →
      len ≠ 0 ∧ 4096 < s.i.toNat + len ∧ e = .outOfBounds (max s.i.toNat 4096) := by
    intro len o u hw
    rcases withRange_cases s.i.toNat len (complete o u) with ⟨-, he⟩ | ⟨h0, hp, he⟩
    · rw [he] at hw; cases hw
    · rw [he] at hw; cases hw; exact ⟨h0, hp, rfl⟩
  cases i with
  | ret =>
    cases hs : s.stack with
    | nil => simp only [exec, execRet, hs, popStack_nil] at h; cases h; exact .inl ⟨rfl, rfl, rfl⟩
    | cons w l => simp [exec, execRet, hs] at h
  | call addr =>
    simp only [exec, execCall] at h
    by_cases hl : s.stack.length < 12
    · rw [pushStack_of_lt hl] at h; cases h
    · rw [pushStack_of_ge (by omega)] at h; cases h; exact .inr (.inl ⟨addr, rfl, by omega, rfl⟩)
  | ldB x => exact .inr (.inr ⟨3, .inr (.inl ⟨x, rfl, rfl⟩), range (len := 3) h⟩)
  | stRegs x =>
    have hw := range h
    rw [State.regsUpTo_length] at hw
    exact .inr (.inr ⟨x.val + 1, .inr (.inr (.inl ⟨x, rfl, rfl⟩)), hw⟩)
  | ldRegs x => exact .inr (.inr ⟨x.val + 1, .inr (.inr (.inr ⟨x, rfl, rfl⟩)), range h⟩)
  | drw x y n => exact .inr (.inr ⟨n.val, .inl ⟨x, y, n, rfl, rfl⟩, range h⟩)
  | cls | jp | jpV0 | seImm | sneImm | seReg | sneReg | skp | sknp | ldImm | addImm | ldReg | or | and | xor | rnd
  | addReg | sub | shr | subn | shl | ldI | addI | ldF | ldVxDt | ldVxK | ldDtVx | ldStVx => cases h

end Sys2Proof.Machine
end

