-- ==== Sys2Proof/Tests/Slice0.lean ====
section
/-! SUPPORT. The model's own tests: ill-formed terms, the decoding of a word of every row, single steps whose results are the
vectors of spec/95_test_vectors.md (their ids stand beside the tests), and the witnesses of the obligations' hypotheses. -/

namespace Sys2Proof.Tests

open Sys2Proof.Machine

/-! ### Well-formedness -/

/-- BNNN whose `x` is not the top nibble of `addr` is refused (30_encoding.md R107). -/
theorem test_wf_refuses_jpV0_with_another_x : (Instr.jpV0 0x123#12 2).WellFormed = false := by decide

theorem test_wf_accepts_jpV0_with_top_nibble : (Instr.jpV0 0x123#12 1).WellFormed = true := by decide

/-! ### Decoding: at least one word of every row of 30_encoding.md R95, its fields put together by R92 and R94 -/

theorem test_decode_control :
    decode 0x00E0#16 = .instr .cls ∧ decode 0x00EE#16 = .instr .ret ∧ decode 0x1FFE#16 = .instr (.jp 0xFFE#12) ∧
    decode 0x2ABC#16 = .instr (.call 0xABC#12) ∧ decode 0xB2F0#16 = .instr (.jpV0 0x2F0#12 2) := by decide

theorem test_decode_skips :
    decode 0x31FE#16 = .instr (.seImm 1 0xFE#8) ∧ decode 0x4207#16 = .instr (.sneImm 2 0x07#8) ∧
    decode 0x5340#16 = .instr (.seReg 3 4) ∧ decode 0x9340#16 = .instr (.sneReg 3 4) ∧
    decode 0xE59E#16 = .instr (.skp 5) ∧ decode 0xE5A1#16 = .instr (.sknp 5) := by decide

theorem test_decode_alu_low :
    decode 0x6FAB#16 = .instr (.ldImm 0xF 0xAB#8) ∧ decode 0x71FF#16 = .instr (.addImm 1 0xFF#8) ∧
    decode 0x8120#16 = .instr (.ldReg 1 2) ∧ decode 0x8121#16 = .instr (.or 1 2) ∧
    decode 0x8122#16 = .instr (.and 1 2) ∧ decode 0x8123#16 = .instr (.xor 1 2) := by decide

theorem test_decode_alu_high :
    decode 0x8AB4#16 = .instr (.addReg 0xA 0xB) ∧ decode 0x8F15#16 = .instr (.sub 0xF 1) ∧
    decode 0x8126#16 = .instr (.shr 1 2) ∧ decode 0x8017#16 = .instr (.subn 0 1) ∧
    decode 0x812E#16 = .instr (.shl 1 2) ∧ decode 0xC30F#16 = .instr (.rnd 3 0x0F#8) := by decide

theorem test_decode_index_memory :
    decode 0xAFFF#16 = .instr (.ldI 0xFFF#12) ∧ decode 0xF21E#16 = .instr (.addI 2) ∧
    decode 0xF429#16 = .instr (.ldF 4) ∧ decode 0xF033#16 = .instr (.ldB 0) ∧
    decode 0xF255#16 = .instr (.stRegs 2) ∧ decode 0xFF65#16 = .instr (.ldRegs 0xF) := by decide

theorem test_decode_io :
    decode 0xD125#16 = .instr (.drw 1 2 5) ∧ decode 0xF307#16 = .instr (.ldVxDt 3) ∧
    decode 0xF50A#16 = .instr (.ldVxK 5) ∧ decode 0xF015#16 = .instr (.ldDtVx 0) ∧
    decode 0xF118#16 = .instr (.ldStVx 1) := by decide

/-- 95_test_vectors.md 2.7. -/
theorem test_decode_unknown :
    decode 0x0123#16 = .unknown 0x0123#16 ∧ decode 0x01E0#16 = .unknown 0x01E0#16 ∧
    decode 0x5001#16 = .unknown 0x5001#16 ∧ decode 0x8008#16 = .unknown 0x8008#16 ∧
    decode 0x9FFF#16 = .unknown 0x9FFF#16 ∧ decode 0xE09F#16 = .unknown 0xE09F#16 ∧
    decode 0xF075#16 = .unknown 0xF075#16 ∧ decode 0xFFFF#16 = .unknown 0xFFFF#16 := by decide

/-- The byte at the lower address is the high one (20_memory.md R69); one byte is no instruction (30_encoding.md R90). -/
theorem test_decode_bytes :
    decodeBytes [0x81#8, 0x26#8, 0x77#8] = .ok (.shr 1 2, [0x77#8]) ∧ decodeBytes [0x81#8] = .error .truncated ∧
    decodeTableWord 16 0x8126 = some (.shr 1 2) ∧ decodeTableWord 16 0x8128 = none := ⟨rfl, rfl, rfl, rfl⟩

/-! ### Helpers -/

/-- An input in which nothing is pressed, no clock ticks and nothing collides. -/
def quiet : StepInput := ⟨0, 0#8, 0#16, none, false⟩

/-- The state the vectors of 95_test_vectors.md start from, with some registers written. -/
def setup (regs : List (Reg × Byte)) : State :=
  regs.foldl (fun s p => s.writeV p.1 p.2) { State.resetWith Config.default with inputs := [quiet] }

/-- The same with another configuration. -/
def withConfig (c : Config) (s : State) : State := { s with config := c }

/-- One step on the opcode `w`. -/
def stepOn (w : Nat) (s : State) : Outcome := step (s.withFetchWord 16 w)

/-- What a next state holds; `none` for any other outcome. -/
def look {α : Type} (f : State → α) : Outcome → Option α
  | .next t => some (f t)
  | .fault _ => none
  | .refused _ => none

/-- The error of an outcome. -/
def errorOf : Outcome → Option Fault
  | .next _ => none
  | .fault e => some e
  | .refused _ => none

/-- The value of a register and of VF. -/
def regAndFlag (x : Reg) (t : State) : Byte × Byte := (t.readV x, t.readV VF)

/-! ### Control transfer -/

/-- T1. -/
theorem test_ret : look (fun t => (t.pc, t.stack))
    (stepOn 0x00EE { setup [] with pc := 0xABC, stack := [0x202] }) = some (0x202#16, []) := by decide

/-- T2. -/
theorem test_ret_underflow : errorOf (stepOn 0x00EE (setup [])) = some .stackUnderflow := by decide

/-- T3. -/
theorem test_jp : look State.pc (stepOn 0x1234 (setup [])) = some 0x234#16 := by decide

/-- T8. -/
theorem test_call_at_end : look (fun t => (t.pc, t.stack)) (stepOn 0x2123 { setup [] with pc := 0xFFE }) =
    some (0x123#16, [0x000#16]) := by decide

/-- T7. -/
theorem test_call_overflow :
    errorOf (stepOn 0x2ABC { setup [] with stack := List.replicate 12 0x202 }) = some .stackOverflow := by decide

/-- T10. -/
theorem test_jpV0 : look State.pc (stepOn 0xBFFF (setup [(0, 0xFF)])) = some 0x0FE#16 := by decide

/-- T12. -/
theorem test_jpV0_uses_vx :
    look State.pc (stepOn 0xB2F0
      (withConfig { Config.default with jumpOffsetUsesVx := true } (setup [(0, 0x10), (2, 0x04)]))) =
      some 0x2F4#16 := by decide

/-! ### Skips -/

/-- S1, S2. -/
theorem test_seImm : look State.pc (stepOn 0x3100 { setup [] with pc := 0x208 }) = some 0x20C#16 ∧
    look State.pc (stepOn 0x3100 { setup [(1, 1)] with pc := 0x208 }) = some 0x20A#16 := by decide

/-- S3, S4. -/
theorem test_sneImm : look State.pc (stepOn 0x4207 { setup [(2, 5)] with pc := 0x300 }) = some 0x304#16 ∧
    look State.pc (stepOn 0x4205 { setup [(2, 5)] with pc := 0x300 }) = some 0x302#16 := by decide

/-- S5, S6. -/
theorem test_seReg : look State.pc (stepOn 0x5340 { setup [(3, 9), (4, 9)] with pc := 0x210 }) = some 0x214#16 ∧
    look State.pc (stepOn 0x5340 { setup [(3, 9), (4, 8)] with pc := 0x210 }) = some 0x212#16 := by decide

/-- S9, S10. -/
theorem test_sneReg : look State.pc (stepOn 0x9340 { setup [(3, 9), (4, 8)] with pc := 0x210 }) = some 0x214#16 ∧
    look State.pc (stepOn 0x9340 { setup [(3, 9), (4, 9)] with pc := 0x210 }) = some 0x212#16 := by decide

/-- S13, S16. -/
theorem test_skp :
    look State.pc (stepOn 0xE59E { setup [(5, 0x07)] with inputs := [{ quiet with keysDown := 0xFF7F }] }) =
      some 0x202#16 ∧
    look State.pc (stepOn 0xE59E { setup [(5, 0x1A)] with inputs := [{ quiet with keysDown := 0x0400 }] }) =
      some 0x204#16 := by decide

/-- S14, S15. -/
theorem test_sknp :
    look State.pc (stepOn 0xE5A1 (setup [(5, 0x07)])) = some 0x204#16 ∧
    look State.pc (stepOn 0xE5A1 { setup [(5, 0x07)] with inputs := [{ quiet with keysDown := 0x0080 }] }) =
      some 0x202#16 := by decide

/-! ### Register load, arithmetic, logic, shift, random -/

/-- A2. -/
theorem test_ldImm : look (State.readV · VF) (stepOn 0x6FAB (setup [])) = some 0xAB#8 := by decide

/-- A5. -/
theorem test_addImm : look (regAndFlag 0) (stepOn 0x7001 (setup [(0, 0xFF), (VF, 0x55)])) = some (0x00#8, 0x55#8) := by
  decide

/-- A7. -/
theorem test_ldReg : look (State.readV · 1) (stepOn 0x8120 (setup [(2, 0x3C)])) = some 0x3C#8 := by decide

/-- A8. -/
theorem test_or : look (regAndFlag 1) (stepOn 0x8121 (setup [(1, 0xF0), (2, 0x3C), (VF, 0x77)])) =
    some (0xFC#8, 0x77#8) := by decide

/-- A9. -/
theorem test_and : look (regAndFlag 1) (stepOn 0x8122 (setup [(1, 0xF0), (2, 0x3C), (VF, 0x77)])) =
    some (0x30#8, 0x77#8) := by decide

/-- A10. -/
theorem test_xor : look (regAndFlag 1) (stepOn 0x8123 (setup [(1, 0xF0), (2, 0x3C), (VF, 0x77)])) =
    some (0xCC#8, 0x77#8) := by decide

/-- A13, A15. -/
theorem test_addReg : look (regAndFlag 0) (stepOn 0x8014 (setup [(0, 0xFF), (1, 0x01)])) = some (0x00#8, 1#8) ∧
    look (regAndFlag 0) (stepOn 0x8014 (setup [(0, 0x80), (1, 0x7F), (VF, 1)])) = some (0xFF#8, 0#8) := by decide

/-- A17, A19. -/
theorem test_addReg_with_flag_register :
    look (State.readV · VF) (stepOn 0x8F14 (setup [(VF, 0xF0), (1, 0x20)])) = some 1#8 ∧
    look (regAndFlag 0) (stepOn 0x80F4 (setup [(0, 0xFF), (VF, 0x01)])) = some (0x00#8, 1#8) := by decide

/-- A21, A22. -/
theorem test_sub : look (regAndFlag 0) (stepOn 0x8015 (setup [(0, 0x03), (1, 0x08)])) = some (0xFB#8, 0#8) ∧
    look (regAndFlag 0) (stepOn 0x8015 (setup [(0, 0x07), (1, 0x07)])) = some (0x00#8, 1#8) := by decide

/-- A25. -/
theorem test_sub_with_flag_register :
    look (State.readV · VF) (stepOn 0x8F15 (setup [(VF, 0x03), (1, 0x05)])) = some 0#8 := by decide

/-- A26, A27. -/
theorem test_subn : look (regAndFlag 0) (stepOn 0x8017 (setup [(0, 0x03), (1, 0x08)])) = some (0x05#8, 1#8) ∧
    look (regAndFlag 0) (stepOn 0x8017 (setup [(0, 0x08), (1, 0x03)])) = some (0xFB#8, 0#8) := by decide

/-- A29. -/
theorem test_shr : look (regAndFlag 1) (stepOn 0x8126 (setup [(1, 0x05), (2, 0xF0)])) = some (0x02#8, 1#8) := by decide

/-- A30, A38. -/
theorem test_shr_uses_vy :
    look (regAndFlag 1) (stepOn 0x8126
      (withConfig { Config.default with shiftUsesVy := true } (setup [(1, 0x05), (2, 0xF0)]))) =
      some (0x78#8, 0#8) ∧
    look (regAndFlag 1) (stepOn 0x81F6
      (withConfig { Config.default with shiftUsesVy := true } (setup [(VF, 0x01), (1, 0x80)]))) =
      some (0x00#8, 1#8) := by decide

/-- A34, A37. -/
theorem test_shl : look (regAndFlag 1) (stepOn 0x812E (setup [(1, 0x81), (2, 0x0F)])) = some (0x02#8, 1#8) ∧
    look (State.readV · VF) (stepOn 0x8F0E (setup [(VF, 0x81)])) = some 1#8 := by decide

/-- A35. -/
theorem test_shl_uses_vy :
    look (regAndFlag 1) (stepOn 0x812E
      (withConfig { Config.default with shiftUsesVy := true } (setup [(1, 0x81), (2, 0x0F)]))) =
      some (0x1E#8, 0#8) := by decide

/-- A39. -/
theorem test_rnd : look (State.readV · 3) (stepOn 0xC30F { setup [] with inputs := [{ quiet with rand := 0xA7 }] }) =
    some 0x07#8 := by decide

/-! ### Address register and memory transfer -/

/-- M1. -/
theorem test_ldI : look State.i (stepOn 0xA300 (setup [])) = some 0x300#16 := by decide

/-- M5. -/
theorem test_addI : look (fun t => (t.i, t.readV VF)) (stepOn 0xF21E { setup [(2, 1)] with i := 0xFFF }) =
    some (0x000#16, 0#8) := by decide

/-- M7, M8. -/
theorem test_addI_sets_flag :
    look (fun t => (t.i, t.readV VF)) (stepOn 0xF21E
      (withConfig { Config.default with iOverflowSetsVf := true } { setup [(2, 0xFF), (VF, 1)] with i := 0xF00 })) =
      some (0xFFF#16, 0#8) ∧
    look (fun t => (t.i, t.readV VF)) (stepOn 0xFF1E
      (withConfig { Config.default with iOverflowSetsVf := true } { setup [(VF, 2)] with i := 0xFFE })) =
      some (0x000#16, 1#8) := by decide

/-- M11, M12. -/
theorem test_ldF : look State.i (stepOn 0xF429 (setup [(4, 0x10)])) = some 0x0A0#16 ∧
    look State.i (stepOn 0xF429
      (withConfig { Config.default with spriteTableAddress := 0xF00 } (setup [(4, 0xFF)]))) = some 0x3FB#16 := by decide

/-- The bytes of memory from an address upward. -/
def bytes (a n : Nat) (t : State) : List Byte := t.mem.readBytes a n

/-- M13, M16. -/
theorem test_ldB : look (bytes 0x300 3) (stepOn 0xF033 { setup [(0, 0xEA)] with i := 0x300 }) = some [2#8, 3#8, 4#8] ∧
    look (bytes 0xFFD 3) (stepOn 0xF033 { setup [(0, 0x64)] with i := 0xFFD }) = some [1#8, 0#8, 0#8] := by decide

/-- M17. -/
theorem test_ldB_out_of_bounds :
    errorOf (stepOn 0xF033 { setup [(0, 0x64)] with i := 0xFFE }) = some (.outOfBounds 4096) := by decide

/-- M18. -/
theorem test_stRegs :
    look (fun t => (bytes 0x400 4 t, t.i))
      (stepOn 0xF255 { setup [(0, 0x11), (1, 0x22), (2, 0x33), (3, 0x44)] with i := 0x400 }) =
      some ([0x11#8, 0x22#8, 0x33#8, 0x00#8], 0x400#16) := by decide

/-- M20. -/
theorem test_stRegs_out_of_bounds :
    errorOf (stepOn 0xF155 { setup [(0, 0x77), (1, 0x88)] with i := 0xFFF }) = some (.outOfBounds 4096) := by decide

/-- M23. -/
theorem test_ldRegs :
    look (fun t => (t.readV 0, t.readV 2, t.readV 3))
      (stepOn 0xF265 { setup [(3, 0x99)] with i := 0x300, mem := [(0x300, 2), (0x301, 3), (0x302, 4), (0x303, 5)] }) =
      some (2#8, 4#8, 0x99#8) := by decide

/-- M25. -/
theorem test_ldRegs_out_of_bounds :
    errorOf (stepOn 0xF165 { setup [] with i := 0xFFF, mem := [(0xFFF, 5)] }) = some (.outOfBounds 4096) := by decide

/-! ### Display, key wait and counters -/

/-- IO1. -/
theorem test_cls : look (fun t => (t.requests, t.readV VF)) (stepOn 0x00E0 (setup [(VF, 1)])) =
    some ([.clear], 1#8) := by decide

/-- IO5. -/
theorem test_drw :
    look (fun t => (t.requests, t.readV VF)) (stepOn 0xD121
      { setup [(1, 0xC8), (2, 0x64)] with
        i := 0xFFF, mem := [(0xFFF, 0x80)], inputs := [{ quiet with collision := true }] }) =
      some ([.draw 0xC8#8 0x64#8 [0x80#8]], 1#8) := by decide

/-- IO4, IO6. -/
theorem test_drw_edges :
    look (fun t => (t.requests, t.readV VF)) (stepOn 0xD120
      { setup [(1, 0xC8), (2, 0x64), (VF, 1)] with i := 0xFFF }) = some ([.draw 0xC8#8 0x64#8 []], 0#8) ∧
    errorOf (stepOn 0xD122 { setup [] with i := 0xFFF }) = some (.outOfBounds 4096) := by decide

/-- IO9. -/
theorem test_ldVxDt : look (fun t => (t.readV 3, t.dt)) (stepOn 0xF307 { setup [] with dt := 0x3C }) =
    some (0x3C#8, 0x3C#8) := by decide

/-- IO10. -/
theorem test_ldVxK_waits : look (fun t => (t.status, t.pc, t.readV 5)) (stepOn 0xF50A (setup [(5, 0x33)])) =
    some (.waitingForKey, 0x200#16, 0x33#8) := by decide

/-- IO11. -/
theorem test_ldVxK_completes :
    look (fun t => (t.status, t.pc, t.readV 5))
      (stepOn 0xF50A { setup [(5, 0x33)] with inputs := [{ quiet with keyPress := some 0xB }] }) =
      some (.ok, 0x202#16, 0x0B#8) := by decide

/-- IO13. -/
theorem test_ldDtVx : look State.dt (stepOn 0xF015 (setup [(0, 0x3C)])) = some 0x3C#8 := by decide

/-- IO14. -/
theorem test_ldStVx : look State.st (stepOn 0xF118 (setup [(1, 0x05)])) = some 0x05#8 := by decide

/-! ### The step, the clock and the host -/

/-- K1, K3, K4. -/
theorem test_tick :
    ({ setup [] with dt := 5, st := 3 }).tickTimers.dt = 4#8 ∧ (setup []).tickTimers.dt = 0#8 ∧
    ({ setup [] with dt := 0xFF, st := 1 }).tickTimers.st = 0#8 := by decide

/-- Two ticks before the step that reads DT (60_exceptions.md R215). -/
theorem test_ticks_before_step :
    look (State.readV · 3) (stepOn 0xF307 { setup [] with dt := 0x05, inputs := [{ quiet with ticks := 2 }] }) =
      some 0x03#8 := by decide

/-- T14. -/
theorem test_fetch_at_end :
    errorOf (step { setup [] with pc := 0xFFF, mem := [(0xFFF, 0x60)] }) = some (.outOfBounds 4096) := by decide

/-- T17. -/
theorem test_odd_pc : look (fun t => (t.readV 0xA, t.pc)) (stepOn 0x6A77 { setup [] with pc := 0x201 }) =
    some (0x77#8, 0x203#16) := by decide

/-- S8. -/
theorem test_unknown_is_reported : errorOf (stepOn 0x5341 (setup [])) = some (.unknownInstruction 0x5341#16) := by decide

/-- The instruction that reads an input runs from `State.reset`, whatever the free input is. -/
theorem test_first_step_after_reset : ∃ t, step (State.reset.withFetchWord 16 0xF00A) = .next t := ⟨_, rfl⟩

/-- E11: the image is stored byte for byte; `load([00], 4096)` is too large. -/
theorem test_load : look (bytes 0x1FF 5) (load [0x60, 0x05, 0x61, 0x03] 0x200 (setup [])) =
      some [0x00#8, 0x60#8, 0x05#8, 0x61#8, 0x03#8] ∧
    errorOf (load [0x00] 4096 (setup [])) = some (.imageTooLarge 4096 1) := by decide

/-- "Clamped to [0,255]" (10_state.md R32). -/
theorem test_host_write_clamps :
    look State.dt (hostWriteDelay 300 (setup [])) = some 255#8 ∧ look State.dt (hostWriteDelay 255 (setup [])) = some 255#8 ∧
    look State.st (hostWriteSound (-1) (setup [])) = some 0#8 := by decide

/-- A step fetches the byte stored before it: FX33 stores 2, 3, 4 at I, and the opcode at I is 0x0203 (20_memory.md R77). -/
theorem test_store_is_fetched :
    look fetch (stepOn 0xF033 { setup [(0, 0xEA)] with i := 0x202 }) = some (.ok 0x0203#16) := rfl

/-- Glyph 7 stands at 073 (P7 of 95_test_vectors.md Part 3). -/
theorem test_loadFont : look (bytes 0x073 5) (loadFont (setup [])) = some [0xF0#8, 0x10#8, 0x20#8, 0x40#8, 0x40#8] := by
  decide

/-! ### Witnesses: states and operands that meet the hypotheses of each obligation, clause by clause -/

theorem test_witness_DecodeOfEncodeIsIdentity : (Instr.jpV0 0xFFF#12 0xF).WellFormed = true ∧
    (Instr.drw 0xF 0 0xF).WellFormed = true := by decide

theorem test_witness_EncodeOfDecodeIsIdentity : decode 0xBFFF#16 = .instr (.jpV0 0xFFF#12 0xF) ∧
    decode 0xFF65#16 = .instr (.ldRegs 0xF) := by decide

theorem test_witness_DecodeAgreesWithOpcodeMap :
    ((⟨"SHL", 0xF00F, 0x800E⟩ : OpcodeRow) ∈ opcodeRows ∧ (⟨"SHL", 0xF00F, 0x800E⟩ : OpcodeRow).Selects 0x8ABE#16) ∧
    (∀ r ∈ opcodeRows, ¬ r.Selects 0x800F#16) := by decide

theorem test_witness_UnknownOpcodeIsReported :
    fetch ((setup []).withFetchWord 16 0x5341).beginStep = .ok 0x5341#16 ∧ (∀ r ∈ opcodeRows, ¬ r.Selects 0x5341#16) ∧
    (0x0FFF#16).toNat < 0x1000 ∧ 0x0FFF#16 ≠ 0x00E0#16 ∧ 0x0FFF#16 ≠ 0x00EE#16 :=
  ⟨rfl, by decide, by decide, by decide, by decide⟩

theorem test_witness_MemoryWriteThenRead :
    Memory.wf [(0, 1#8), (0xFFF, 7#8)] = true ∧ 4095 < 4096 ∧ (4096 : Nat) ≤ 4096 := by decide

theorem test_witness_CanonicalMemoryIsDeterminedByReads :
    Memory.wf (Memory.write (Memory.write [] 7 2#8) 5 1#8) = true ∧
    Memory.wf (Memory.write (Memory.write [] 5 1#8) 7 2#8) = true ∧
    ∀ a, a < 4096 → (Memory.write (Memory.write [] 7 2#8) 5 1#8).read a =
      (Memory.write (Memory.write [] 5 1#8) 7 2#8).read a :=
  ⟨by decide, by decide, fun _ _ => rfl⟩

theorem test_witness_LoadStoresImageExactly :
    (setup []).mem.wf = true ∧ (setup []).status = .notStepped ∧ 0x200 + (List.replicate 3584 1#8).length ≤ 4096 ∧
    4096 < 0x200 + (List.replicate 3585 1#8).length ∧ ((setup []).setStatus .ok).mem.wf = true ∧
    ((setup []).setStatus .ok).status ≠ .notStepped :=
  ⟨by decide, by decide, by rw [List.length_replicate], by rw [List.length_replicate]; decide, by decide, by decide⟩

/-- Both bytes stored, the low byte only (FX55 with x = 0), the high byte only (FX33), and none. -/
theorem test_witness_StoredRegistersAreFetched :
    (setup []).mem.wf = true ∧
    (∃ t, exec (.stRegs 1) { setup [] with i := 0x202 } = .next t ∧ t.pc.toNat + 1 < 4096) ∧
    (∃ t, exec (.stRegs 0) { setup [] with i := 0x203 } = .next t ∧ t.pc.toNat + 1 < 4096) ∧
    (∃ t, exec (.ldB 0) { setup [] with i := 0x200 } = .next t ∧ t.pc.toNat + 1 < 4096) ∧
    ∃ t, exec (.jp 0xFFE#12) (setup []) = .next t ∧ t.pc.toNat + 1 < 4096 :=
  ⟨by decide, ⟨_, rfl, by decide⟩, ⟨_, rfl, by decide⟩, ⟨_, rfl, by decide⟩, _, rfl, by decide⟩

theorem test_witness_HostAccessorsCheckAndMask : (setup []).status = .notStepped ∧ 15 < 16 ∧ (16 : Nat) ≤ 16 := by decide

theorem test_witness_StepKeepsInvariant :
    ((setup []).withFetchWord 16 0x6005).Inv ∧ ∃ t, step ((setup []).withFetchWord 16 0x6005) = .next t :=
  ⟨⟨by decide, by decide, by decide, nofun, by decide⟩, _, rfl⟩

theorem test_witness_ReachableStatesSatisfyInvariant :
    ∃ s t, load [0x60#8, 0x05#8] 0x200 { State.resetWith Config.default with inputs := [quiet] } = .next s ∧
      step s = .next t ∧ Reachable t.tickTimers ∧ t.tickTimers.readV 0 = 5#8 := by
  have hs := Reachable.load _ _ [0x60#8, 0x05#8] 0x200 (.reset Config.default [quiet]) rfl
  exact ⟨_, _, rfl, rfl, .tick _ (.step _ _ hs rfl), by decide⟩

theorem test_witness_FreshCoreReportsUnknownZero :
    Config.default.entryAddress.toNat % 4096 ≠ 4095 ∧
    ({ Config.default with entryAddress := 0xFFFF }).entryAddress.toNat % 4096 = 4095 := by decide

theorem test_witness_FetchIsBigEndianAndBounded :
    ({ setup [] with pc := 0xFFE }).pc.toNat < 4095 ∧ ({ setup [] with pc := 0xFFF }).pc.toNat < 4096 ∧
    ({ setup [] with pc := 0xFFF }).pc.toNat = 4095 := by decide

theorem test_witness_StepRunsDecodedInstruction :
    let s := { setup [] with pc := 0xFFE, mem := [(0xFFE, 0x60#8), (0xFFF, 0x05#8)] }
    s.pc.toNat + 1 < 4096 ∧
      decode (s.mem.read s.pc.toNat ++ s.mem.read (s.pc.toNat + 1)) = .instr (.ldImm 0 5#8) := by decide

theorem test_witness_PlacedWordIsFetched :
    ({ setup [] with pc := 0xFFE }).mem.wf = true ∧ ({ setup [] with pc := 0xFFE }).pc.toNat + 1 < 4096 := by decide

theorem test_witness_ConfigurationNeverChanges :
    (∃ t, step ((setup []).withFetchWord 16 0xF01E) = .next t) ∧ (∃ t, load [1#8] 4095 (setup []) = .next t) :=
  ⟨⟨_, rfl⟩, _, rfl⟩

theorem test_witness_OnlyStoringInstructionsChangeMemory :
    let s := { setup [(0, 0xFF)] with i := 0xFFD }
    s.mem.wf = true ∧ (∃ t, exec (.ldB 0) s = .next t ∧ t.mem.read 0xFFF ≠ s.mem.read 0xFFF) ∧
      ∃ t, exec (.stRegs 2) s = .next t ∧ t.mem.read 0xFFD ≠ s.mem.read 0xFFD :=
  ⟨by decide, ⟨_, rfl, by decide⟩, _, rfl, by decide⟩

theorem test_witness_OnlyCallAndReturnTouchStack :
    (∃ t, exec (.call 0x300#12) { setup [] with stack := List.replicate 11 0x202 } = .next t) ∧
    ∃ t, exec .ret { setup [] with stack := [0x202] } = .next t := ⟨⟨_, rfl⟩, _, rfl⟩

theorem test_witness_OnlyThreeInstructionsWriteI :
    (∃ t, exec (.ldI 0xFFF#12) (setup []) = .next t) ∧ (∃ t, exec (.addI 0) (setup []) = .next t) ∧
    ∃ t, exec (.ldF 0) (setup []) = .next t := ⟨⟨_, rfl⟩, ⟨_, rfl⟩, _, rfl⟩

theorem test_witness_CountersAreWrittenBySetInstructionsOnly :
    (∃ t, exec (.ldDtVx 0) (setup [(0, 9)]) = .next t ∧ t.dt ≠ (setup [(0, 9)]).dt) ∧
    ∃ t, exec (.ldStVx 0) (setup [(0, 9)]) = .next t ∧ t.st ≠ (setup [(0, 9)]).st :=
  ⟨⟨_, rfl, by decide⟩, _, rfl, by decide⟩

theorem test_witness_RegistersChangeOnlyAsTabled :
    let s := setup [(0, 0xFF), (1, 0x01)]
    ∃ t, exec (.addReg 0 1) s = .next t ∧ t.readV 0 ≠ s.readV 0 ∧ t.readV VF ≠ s.readV VF ∧
      setsFlag s.config (.addReg 0 1) = true := ⟨_, rfl, by decide, by decide, by decide⟩

theorem test_witness_PcChangesOnlyAsTabled :
    (∃ t, exec (.ldVxK 0) (setup []) = .next t ∧ t.status = .waitingForKey) ∧
    (∃ t, exec (.seImm 0 0#8) (setup []) = .next t ∧ t.pc = (setup []).skipPc) ∧
    (∃ t, exec (.seImm 0 1#8) (setup []) = .next t ∧ t.pc = (setup []).nextPc) ∧
    (∃ t, exec .ret { setup [] with stack := [0xFFF] } = .next t ∧ t.pc = 0xFFF#16) ∧
    ∃ t, exec (.jp 0x123#12) (setup []) = .next t :=
  ⟨⟨_, rfl, rfl⟩, ⟨_, rfl, by decide⟩, ⟨_, rfl, by decide⟩, ⟨_, rfl, by decide⟩, _, rfl⟩

theorem test_witness_EachInstructionHasItsOwnError :
    exec .ret (setup []) = .fault .stackUnderflow ∧
    exec (.call 0#12) { setup [] with stack := List.replicate 12 0x202 } = .fault .stackOverflow ∧
    exec (.drw 0 0 2) { setup [] with i := 0xFFF } = .fault (.outOfBounds 4096) := ⟨rfl, rfl, rfl⟩

theorem test_witness_ErrorsDoNotDependOnInputs :
    step ((setup []).withFetchWord 16 0x00EE) = .fault .stackUnderflow := rfl

theorem test_witness_UnusedInputsHaveNoEffect :
    AgreeOn (.rnd 0 0xFF#8) (setup []).input
      ((setup []).withInputs [{ quiet with keysDown := 1, keyPress := some 2, collision := true }] 5).input ∧
    AgreeOn (.ldVxK 0) (setup []).input ((setup []).withInputs [{ quiet with rand := 9 }] 5).input ∧
    AgreeOn (.skp 0) (setup []).input ((setup []).withInputs [{ quiet with rand := 9, keyPress := some 2 }] 5).input ∧
    AgreeOn (.sknp 0) (setup []).input ((setup []).withInputs [{ quiet with rand := 9, collision := true }] 5).input ∧
    AgreeOn (.drw 0 0 1) (setup []).input ((setup []).withInputs [{ quiet with rand := 9, keysDown := 1 }] 5).input ∧
    AgreeOn .cls (setup []).input ((setup []).withInputs [⟨7, 9#8, 1#16, some 2, true⟩] 5).input :=
  ⟨rfl, rfl, rfl, rfl, rfl, trivial⟩

theorem test_witness_WaitingStepKeepsTheCore :
    ∃ t, step ({ setup [] with dt := 5, inputs := [{ quiet with ticks := 2 }] }.withFetchWord 16 0xF50A) = .next t ∧
      t.status = .waitingForKey := ⟨_, rfl, rfl⟩

theorem test_witness_ReturnPopsOrUnderflows :
    ({ setup [] with stack := [0xFFF, 0x202] }).stack = 0xFFF#16 :: [0x202#16] ∧ (0xFFF#16).toNat < 4096 ∧
    (setup []).stack = [] := by decide

theorem test_witness_JumpGoesToAddress :
    (setup []).pc = (0x200#12).setWidth 16 ∧ ({ setup [] with pc := 0xFFF }).pc = (0xFFF#12).setWidth 16 := by decide

theorem test_witness_CallPushesOrOverflows :
    ({ setup [] with stack := List.replicate 11 0x202 }).stack.length < 12 ∧
    ({ setup [] with stack := List.replicate 12 0x202 }).stack.length = 12 := by decide

theorem test_witness_JumpWithOffsetAddsRegister :
    (0xF : Reg).val = (0xFFF#12).toNat / 256 ∧ (setup []).config.jumpOffsetUsesVx = false ∧
    (withConfig { Config.default with jumpOffsetUsesVx := true } (setup [])).config.jumpOffsetUsesVx = true := by decide

theorem test_witness_CallThenReturnRestores :
    ({ setup [] with stack := List.replicate 11 0x202 }).stack.length < 12 := by decide

theorem test_witness_TwelveCallsThenOverflow :
    (setup []).stack = [] ∧ (List.replicate 12 (0xFFF#12)).length = 12 := by decide

theorem test_witness_RegisterSkipsCompare : (1 : Rows) ≠ 0 ∧ (0xF : Rows) ≠ 0 := by decide

theorem test_witness_AddSetsCarry : (0 : Reg) ≠ VF ∧ (0xE : Reg) ≠ VF := by decide

theorem test_witness_SubtractSetsNoBorrow : (0 : Reg) ≠ VF ∧ (0xE : Reg) ≠ VF := by decide

theorem test_witness_ShiftsMoveOneBitOut :
    (0xE : Reg) ≠ VF ∧
    0x81#8 = (if (setup [(1, 0x81)]).config.shiftUsesVy then (setup [(1, 0x81)]).readV 2
      else (setup [(1, 0x81)]).readV 1) ∧
    (let s := withConfig { Config.default with shiftUsesVy := true } (setup [(2, 0x0F)])
     0x0F#8 = (if s.config.shiftUsesVy then s.readV 2 else s.readV 1)) := by decide

theorem test_witness_AddToIndexWraps :
    (setup []).config.iOverflowSetsVf = false ∧
    (withConfig { Config.default with iOverflowSetsVf := true } (setup [])).config.iOverflowSetsVf = true := by decide

theorem test_witness_StoreDecimalDigits :
    (({ setup [] with i := 0xFFD }).mem.wf = true ∧ ({ setup [] with i := 0xFFD }).i.toNat + 2 < 4096) ∧
    (({ setup [] with i := 0xFFE }).i.toNat < 4096 ∧ 4096 ≤ ({ setup [] with i := 0xFFE }).i.toNat + 2) := by decide

theorem test_witness_StoreRegistersAtI :
    (({ setup [] with i := 0xFF0 }).mem.wf = true ∧ ({ setup [] with i := 0xFF0 }).i.toNat + (0xF : Reg).val < 4096) ∧
    (({ setup [] with i := 0xFF1 }).i.toNat < 4096 ∧
      4096 ≤ ({ setup [] with i := 0xFF1 }).i.toNat + (0xF : Reg).val) := by decide

theorem test_witness_LoadRegistersFromI :
    ({ setup [] with i := 0xFFF }).i.toNat + (0 : Reg).val < 4096 ∧
    (({ setup [] with i := 0xFFF }).i.toNat < 4096 ∧
      4096 ≤ ({ setup [] with i := 0xFFF }).i.toNat + (1 : Reg).val) := by decide

theorem test_witness_DrawSendsSpriteAndTakesCollision :
    (0 : Rows).val = 0 ∧ ({ setup [] with i := 0xFF1 }).i.toNat + (0xF : Rows).val ≤ 4096 ∧
    (({ setup [] with i := 0xFFF }).i.toNat < 4096 ∧ 0 < (2 : Rows).val ∧
      4096 ≤ ({ setup [] with i := 0xFFF }).i.toNat + (2 : Rows).val - 1) := by decide

theorem test_witness_KeyWaitStoresOrWaits :
    ({ setup [] with inputs := [{ quiet with keyPress := some 0xF }] }).input.keyPress = some 0xF ∧
    (setup []).input.keyPress = none := by decide

end Sys2Proof.Tests
end

section
/-! The configuration is constant from reset onward (spec/00_scope.md R6): the updates of the state that have no field
lemma of their own, then `load`, the meanings and the step, each keeping it. -/

namespace Sys2Proof.Machine

@[simp] theorem State.beginStep_config (s : State) : s.beginStep.config = s.config := rfl

@[simp] theorem State.writeResultAndFlag_config (s : State) (x : Reg) (b : Byte) (f : Bool) :
    (s.writeResultAndFlag x b f).config = s.config := rfl

/-- A host operation that goes on was called before the first step. -/
theorem beforeRunning_eq_next {s t : State} {k : Outcome} (h : beforeRunning s k = .next t) :
    s.status = .notStepped ∧ k = .next t := by
  cases hs : s.status with
  | notStepped => rw [beforeRunning, hs] at h; exact ⟨rfl, h⟩
  | ok | waitingForKey => rw [beforeRunning, hs] at h; cases h

/-- Everything a `load` that succeeds has done (20_memory.md R64). -/
theorem load_eq_next {image : List Byte} {offset : Nat} {s t : State} (h : load image offset s = .next t) :
    s.status = .notStepped ∧ offset + image.length ≤ 4096 ∧ t = s.setMem (s.mem.writeBytes offset image) := by
  obtain ⟨hs, h⟩ := beforeRunning_eq_next h
  split at h
  · cases h
  · next hfit => cases h; exact ⟨hs, Nat.le_of_not_lt hfit, rfl⟩

/-- No effect of an instruction reaches the configuration. -/
theorem Effect.config_eq {i : Instr} {s t : State} (h : Effect i s t) : t.config = s.config := by
  cases h with
  | waits _ _ _ ht | takesKey _ _ _ _ ht => simp [ht]
  | skips _ ht | jumps _ _ _ ht | returns _ _ _ _ ht | calls _ _ _ ht => simp [ht]
  | setsReg _ _ _ _ ht | setsRegAndFlag _ _ _ _ _ ht | loadsRegs _ _ _ ht => simp [ht]
  | setsI _ _ ht | setsIAndFlag _ _ _ _ _ ht => simp [ht]
  | storesDigits _ _ _ ht | storesRegs _ _ _ ht => simp [ht]
  | clears _ ht | draws _ _ _ _ _ ht => simp [ht]
  | setsDelay _ _ ht | setsSound _ _ ht => simp [ht]

theorem step_config {s t : State} (h : step s = .next t) : t.config = s.config := by
  obtain ⟨w, i, u, -, -, hexec, rfl⟩ := step_eq_next h
  calc u.consumeInput.config = u.config := u.consumeInput_config
    _ = s.beginStep.config := (effect_of_exec hexec).config_eq
    _ = s.config := s.beginStep_config

theorem load_config {image : List Byte} {offset : Nat} {s t : State} (h : load image offset s = .next t) :
    t.config = s.config := by
  obtain ⟨-, -, rfl⟩ := load_eq_next h
  exact s.setMem_config _

/-- Settles O22: the effect of every meaning, the ticks and the stores of `load` leave the configuration field alone. -/
theorem configurationNeverChanges : Obligations.ConfigurationNeverChanges :=
  ⟨fun _ _ => step_config, State.tickTimers_config, fun _ _ _ _ => load_config⟩

end Sys2Proof.Machine
end

section
/-! What the effect of a meaning does to each register of spec/10_state.md, one lemma per field: the stack (R33),
I (R25), the counters (R30, R31), memory (R61), the general registers (R22, R23) and PC (R29). -/

namespace Sys2Proof.Machine

section
variable (s : State) (x : Reg) (b : Byte) (f : Bool)

@[simp] theorem State.writeResultAndFlag_i : (s.writeResultAndFlag x b f).i = s.i := rfl
@[simp] theorem State.writeResultAndFlag_dt : (s.writeResultAndFlag x b f).dt = s.dt := rfl
@[simp] theorem State.writeResultAndFlag_st : (s.writeResultAndFlag x b f).st = s.st := rfl
@[simp] theorem State.writeResultAndFlag_stack : (s.writeResultAndFlag x b f).stack = s.stack := rfl
@[simp] theorem State.writeResultAndFlag_mem : (s.writeResultAndFlag x b f).mem = s.mem := rfl
@[simp] theorem State.writeResultAndFlag_nextPc : (s.writeResultAndFlag x b f).nextPc = s.nextPc := rfl

end

variable {i : Instr} {s t : State}

theorem Effect.stack_cases (h : Effect i s t) :
    t.stack = s.stack ∨
      (∃ addr, i = .call addr ∧ s.stack.length < 12 ∧ t.stack = s.nextPc :: s.stack) ∨
      (i = .ret ∧ ∃ w, s.stack = w :: t.stack) := by
  cases h with
  | calls addr hi hl ht => exact .inr (.inl ⟨addr, hi, hl, by simp [ht]⟩)
  | returns w l hi hs ht => exact .inr (.inr ⟨hi, w, by simp [ht, hs]⟩)
  | _ => next ht => simp [ht]

theorem Effect.i_cases (h : Effect i s t) :
    t.i = s.i ∨
      ((∃ addr, i = .ldI addr) ∨ (∃ x, i = .addI x) ∨ ∃ x, i = .ldF x) ∧ ∃ n, t.i = mask12 n := by
  cases h with
  | setsI n hi ht =>
    refine .inr ⟨?_, n, by simp [ht]⟩
    obtain hldI | ⟨x, haddI, -⟩ | hldF := hi
    · exact .inl hldI
    · exact .inr (.inl ⟨x, haddI⟩)
    · exact .inr (.inr hldF)
  | setsIAndFlag x n _ hi _ ht => exact .inr ⟨.inr (.inl ⟨x, hi⟩), n, by simp [ht]⟩
  | _ => next ht => simp [ht]

theorem Effect.counters_cases (h : Effect i s t) :
    (t.dt = s.dt ∨ ∃ x, i = .ldDtVx x ∧ t.dt = s.readV x) ∧
      (t.st = s.st ∨ ∃ x, i = .ldStVx x ∧ t.st = s.readV x) := by
  cases h with
  | setsDelay x hi ht => exact ⟨.inr ⟨x, hi, by simp [ht]⟩, .inl (by simp [ht])⟩
  | setsSound x hi ht => exact ⟨.inl (by simp [ht]), .inr ⟨x, hi, by simp [ht]⟩⟩
  | _ => next ht => simp [ht]

theorem Effect.mem_cases (h : Effect i s t) :
    t.mem = s.mem ∨ ∃ bs : List Byte, s.i.toNat + bs.length ≤ 4096 ∧ t.mem = s.mem.writeBytes s.i.toNat bs := by
  cases h with
  | storesDigits x _ hr ht => exact .inr ⟨bcdDigits (s.readV x), hr, by simp [ht]⟩
  | storesRegs x _ hr ht => exact .inr ⟨s.regsUpTo x, by simpa using hr, by simp [ht]⟩
  | _ => next ht => simp [ht]

/-! ### General registers -/

theorem State.eq_of_writeV_readV_ne {x r : Reg} {b : Byte} (h : (s.writeV x b).readV r ≠ s.readV r) : r = x := by
  by_contra hne
  exact h (by rw [State.writeV_readV, if_neg hne])

/-- The two ways of the register table in which V[r] may change. -/
theorem Effect.reg_cases (h : Effect i s t) {r : Reg} (hr : t.readV r ≠ s.readV r) :
    writesReg i r = true ∨ (r = VF ∧ setsFlag s.config i = true) := by
  cases h with
  | setsReg x b hi _ ht =>
    subst ht
    obtain rfl : r = x := State.eq_of_writeV_readV_ne hr
    exact .inl hi
  | takesKey x k hi _ ht =>
    subst ht hi
    obtain rfl : r = x := State.eq_of_writeV_readV_ne hr
    exact .inl (by simp [writesReg])
  | setsRegAndFlag x b f hi hf ht =>
    subst ht
    by_cases hVF : r = VF
    · exact .inr ⟨hVF, hf⟩
    · obtain rfl : r = x := by
        by_contra hne
        exact hr (by simp [State.writeResultAndFlag_readV, hVF, hne])
      exact .inl hi
  | setsIAndFlag x n f hi hc ht =>
    subst ht hi
    exact .inr ⟨State.eq_of_writeV_readV_ne hr, hc⟩
  | draws x y n hi _ ht =>
    subst ht hi
    exact .inr ⟨State.eq_of_writeV_readV_ne hr, rfl⟩
  | loadsRegs x hi _ ht =>
    subst ht hi
    refine .inl (decide_eq_true ?_)
    by_contra hlt
    exact hr (by rw [State.completed_readV, State.fillFromI_readV, if_neg hlt])
  | _ => next ht => simp [ht] at hr

theorem flagByte_zero_or_one (f : Bool) : flagByte f = 0#8 ∨ flagByte f = 1#8 := by
  cases f
  · exact .inl rfl
  · exact .inr rfl

theorem setsFlag_of_isSkip (hi : isSkip i = true) (c : Config) : setsFlag c i = false := by
  cases i with
  | seImm | sneImm | seReg | sneReg | skp | sknp => rfl
  | _ => cases hi

/-- An instruction that sets a flag leaves one in VF. -/
theorem Effect.exists_flag (h : Effect i s t) (hflag : setsFlag s.config i = true) :
    ∃ f, t.readV VF = flagByte f := by
  cases h with
  | setsRegAndFlag x b f _ _ ht => exact ⟨f, by simp [ht, State.writeResultAndFlag_readV]⟩
  | setsIAndFlag x n f _ _ ht => exact ⟨f, by simp [ht]⟩
  | draws x y n _ _ ht => exact ⟨s.input.collision, by simp [ht]⟩
  | setsReg _ _ _ hf _ => simp [hf] at hflag
  | skips hi _ => simp [setsFlag_of_isSkip hi] at hflag
  | jumps _ hi _ _ => obtain ⟨_, rfl⟩ | ⟨_, _, rfl⟩ := hi <;> cases hflag
  | setsI _ hi _ =>
    obtain ⟨_, rfl⟩ | ⟨_, rfl, hc⟩ | ⟨_, rfl⟩ := hi
    · cases hflag
    · exact absurd (hc.symm.trans hflag) Bool.false_ne_true
    · cases hflag
  | waits _ hi _ _ | takesKey _ _ hi _ _ => subst hi; cases hflag
  | returns _ _ hi _ _ | calls _ hi _ _ => subst hi; cases hflag
  | storesDigits _ hi _ _ | storesRegs _ hi _ _ | loadsRegs _ hi _ _ => subst hi; cases hflag
  | clears hi _ | setsDelay _ hi _ | setsSound _ hi _ => subst hi; cases hflag

/-! ### PC -/

/-- `NextPC` is the tabled value of every instruction that neither jumps nor skips. -/
theorem pc_tabled_of_advances (hpc : t.pc = s.nextPc) (hset : setsPc i = false) (hskip : isSkip i = false) :
    t.pc.toNat = tabledPc i s := by
  rw [hpc, tabledPc_of_not_setsPc hset, skipHolds_of_not_isSkip hskip]; rfl

theorem setsPc_of_isSkip (hi : isSkip i = true) : setsPc i = false := by
  cases i with
  | seImm | sneImm | seReg | sneReg | skp | sknp => rfl
  | _ => cases hi

theorem advances_of_writesReg {x : Reg} (hi : writesReg i x = true) : setsPc i = false ∧ isSkip i = false := by
  cases i with
  | ldImm | addImm | rnd | ldReg | or | and | xor | addReg | sub | shr | subn | shl | ldVxDt | ldVxK | ldRegs =>
    exact ⟨rfl, rfl⟩
  | _ => cases hi

/-- PC after an effect other than the wait is the tabled value, and the status is `Ok`. -/
theorem Effect.pc_cases (h : Effect i s t) :
    (t.status = .waitingForKey ∧ (∃ x, i = .ldVxK x) ∧ s.input.keyPress = none ∧ t.pc = s.pc) ∨
      (t.status = .ok ∧ t.pc.toNat = tabledPc i s) := by
  cases h with
  | waits x hi hk ht => exact .inl ⟨by simp [ht], ⟨x, hi⟩, hk, by simp [ht]⟩
  | skips hi ht =>
    refine .inr ⟨by simp [ht], ?_⟩
    rw [tabledPc_of_not_setsPc (setsPc_of_isSkip hi), ht]
    cases skipHolds i s
    · rfl
    · rfl
  | jumps n _ hn ht => exact .inr ⟨by simp [ht], by simp [ht, hn]⟩
  | returns w l hi hs ht => exact .inr ⟨by simp [ht], by simp [ht, hi, tabledPc_ret hs]⟩
  | calls addr hi _ ht =>
    have haddr := addr.isLt
    refine .inr ⟨by simp [ht], ?_⟩
    simp [ht, hi, tabledPc_call]; omega
  | setsReg x _ hi _ ht | setsRegAndFlag x _ _ hi _ ht =>
    obtain ⟨hset, hskip⟩ := advances_of_writesReg hi
    exact .inr ⟨by simp [ht], pc_tabled_of_advances (by simp [ht]) hset hskip⟩
  | setsI _ hi ht =>
    have hpc : t.pc = s.nextPc := by simp [ht]
    refine .inr ⟨by simp [ht], ?_⟩
    obtain ⟨_, rfl⟩ | ⟨_, rfl, -⟩ | ⟨_, rfl⟩ := hi <;> exact pc_tabled_of_advances hpc rfl rfl
  | takesKey _ _ hi _ ht | setsIAndFlag _ _ _ hi _ ht | draws _ _ _ hi _ ht
  | storesDigits _ hi _ ht | storesRegs _ hi _ ht | loadsRegs _ hi _ ht
  | clears hi ht | setsDelay _ hi ht | setsSound _ hi ht =>
    subst hi
    exact .inr ⟨by simp [ht], pc_tabled_of_advances (by simp [ht]) rfl rfl⟩

theorem tabledPc_lt (i : Instr) (s : State) : tabledPc i s < 4096 := by
  by_cases hi : setsPc i = true
  · cases i with
    | jp addr | call addr => exact addr.isLt
    | jpV0 | ret => exact Nat.mod_lt _ (by decide)
    | _ => cases hi
  · rw [tabledPc_of_not_setsPc (by simpa using hi)]
    split
    · exact mask12_lt _
    · exact mask12_lt _

end Sys2Proof.Machine
end

section
/-! The invariants of spec/10_state.md R49: they hold after reset, and `load`, `step` and `tick_timers` keep them. -/

namespace Sys2Proof.Machine

section
variable {i : Instr} {s t : State}

@[simp] theorem State.inv_beginStep : s.beginStep.Inv ↔ s.Inv := .rfl

@[simp] theorem State.inv_consumeInput : s.consumeInput.Inv ↔ s.Inv := .rfl

@[simp] theorem State.inv_tickTimers : s.tickTimers.Inv ↔ s.Inv := .rfl

@[simp] theorem State.resetWith_pc_toNat (c : Config) :
    (State.resetWith c).pc.toNat = c.entryAddress.toNat % 4096 := by
  rw [State.resetWith, BitVec.toNat_and]
  exact Nat.and_two_pow_sub_one_eq_mod _ 12

theorem State.inv_resetWith (c : Config) : (State.resetWith c).Inv := by
  refine ⟨?_, Nat.zero_lt_succ _, Nat.zero_le _, nofun, State.reset_mem_wf c⟩
  rw [State.resetWith_pc_toNat]
  exact Nat.mod_lt _ (by decide)

/-- A store inside memory keeps the invariant. -/
theorem State.inv_setMem_writeBytes (hs : s.Inv) {a : Nat} {bs : List Byte} (h : a + bs.length ≤ 4096) :
    (s.setMem (s.mem.writeBytes a bs)).Inv := by
  obtain ⟨hpc, hI, hdepth, hentries, hmem⟩ := hs
  exact ⟨hpc, hI, hdepth, hentries, Memory.wf_writeBytes bs hmem h⟩

theorem Effect.pc_lt (h : Effect i s t) (hpc : s.pc.toNat < 4096) : t.pc.toNat < 4096 := by
  obtain ⟨-, -, -, hsame⟩ | ⟨-, htabled⟩ := h.pc_cases
  · rwa [hsame]
  · rw [htabled]; exact tabledPc_lt i s

theorem Effect.i_lt (h : Effect i s t) (hI : s.i.toNat < 4096) : t.i.toNat < 4096 := by
  obtain hsame | ⟨-, n, hn⟩ := h.i_cases
  · rwa [hsame]
  · rw [hn]; exact mask12_lt n

theorem Effect.stack_inv (h : Effect i s t) (hdepth : s.stack.length ≤ 12)
    (hentries : ∀ w ∈ s.stack, w.toNat < 4096) :
    t.stack.length ≤ 12 ∧ ∀ w ∈ t.stack, w.toNat < 4096 := by
  obtain hsame | ⟨-, -, hlt, hpush⟩ | ⟨-, w, hpop⟩ := h.stack_cases
  · rw [hsame]; exact ⟨hdepth, hentries⟩
  · rw [hpush]
    exact ⟨hlt, List.forall_mem_cons.2 ⟨mask12_lt _, hentries⟩⟩
  · rw [hpop] at hdepth hentries
    exact ⟨Nat.le_of_succ_le hdepth, (List.forall_mem_cons.1 hentries).2⟩

theorem Effect.mem_wf (h : Effect i s t) (hmem : s.mem.wf = true) : t.mem.wf = true := by
  obtain hsame | ⟨bs, hfit, hstore⟩ := h.mem_cases
  · rwa [hsame]
  · rw [hstore]; exact Memory.wf_writeBytes bs hmem hfit

theorem Effect.inv (h : Effect i s t) (hs : s.Inv) : t.Inv := by
  obtain ⟨hpc, hI, hdepth, hentries, hmem⟩ := hs
  obtain ⟨hdepth', hentries'⟩ := h.stack_inv hdepth hentries
  exact ⟨h.pc_lt hpc, h.i_lt hI, hdepth', hentries', h.mem_wf hmem⟩

theorem step_inv (hs : s.Inv) (h : step s = .next t) : t.Inv := by
  obtain ⟨w, i, u, -, -, hexec, rfl⟩ := step_eq_next h
  exact State.inv_consumeInput.2 ((effect_of_exec hexec).inv (State.inv_beginStep.2 hs))

theorem load_inv {image : List Byte} {offset : Nat} (hs : s.Inv) (h : load image offset s = .next t) : t.Inv := by
  obtain ⟨-, hfit, rfl⟩ := load_eq_next h
  exact State.inv_setMem_writeBytes hs hfit

theorem Reachable.inv (h : Reachable s) : s.Inv := by
  induction h with
  | reset c ins => exact State.inv_resetWith c
  | load s t image offset _ hload ih => exact load_inv ih hload
  | step s t _ hstep ih => exact step_inv ih hstep
  | tick s _ ih => exact State.inv_tickTimers.2 ih

/-! Memory has exactly the cells 0..4095. -/

theorem memRead_of_lt {m : Memory} {a : Nat} (h : a < 4096) : memRead m a = .ok (m.read a) := if_pos h

theorem memRead_of_ge {m : Memory} {a : Nat} (h : 4096 ≤ a) : memRead m a = .error (.outOfBounds a) :=
  if_neg (Nat.not_lt.2 h)

end

/-- Settles O13: each field of the invariant is kept by the effect of every meaning, and the ticks and the used input
touch none of them. -/
theorem stepKeepsInvariant : Obligations.StepKeepsInvariant := fun _ _ => step_inv

/-- Settles O14, by induction on how the state is reached. -/
theorem reachableStatesSatisfyInvariant : Obligations.ReachableStatesSatisfyInvariant :=
  fun _ h => ⟨h.inv, fun _ ha => ⟨_, memRead_of_lt ha⟩, fun _ => memRead_of_ge⟩

/-- Settles O12. -/
theorem resetSatisfiesInvariant : Obligations.ResetSatisfiesInvariant :=
  ⟨State.inv_resetWith, State.inv_resetWith Config.default⟩

/-- Settles O11: every field but PC is literal in `State.resetWith`, and PC is masked to 12 bits. -/
theorem resetHoldsResetValues : Obligations.ResetHoldsResetValues :=
  fun c => ⟨fun _ => rfl, State.resetWith_readV c, rfl, State.resetWith_pc_toNat c, rfl, rfl, rfl, rfl, rfl⟩

end Sys2Proof.Machine
end

section
/-! Which instruction may write which register (spec/10_state.md R22 to R33): each statement is the field's lemma about
`Effect`. -/

namespace Sys2Proof.Machine

/-- Settles O24: 2NNN pushes only below 12 entries. -/
theorem onlyCallAndReturnTouchStack : Obligations.OnlyCallAndReturnTouchStack := by
  intro i s t h
  obtain hsame | ⟨addr, hi, hlt, hpush⟩ | hpop := (effect_of_exec h).stack_cases
  · exact .inl hsame
  · exact .inr (.inl ⟨addr, hi, hpush, by rw [hpush]; exact hlt⟩)
  · exact .inr (.inr hpop)

/-- Settles O25. -/
theorem onlyThreeInstructionsWriteI : Obligations.OnlyThreeInstructionsWriteI :=
  fun _ _ _ h => (effect_of_exec h).i_cases.imp_right And.left

/-- Settles O26. -/
theorem countersAreWrittenBySetInstructionsOnly : Obligations.CountersAreWrittenBySetInstructionsOnly :=
  fun _ _ _ h => (effect_of_exec h).counters_cases

/-- Settles O27: the flag an instruction leaves in VF is a `flagByte`. -/
theorem registersChangeOnlyAsTabled : Obligations.RegistersChangeOnlyAsTabled := by
  intro i s t h
  have heffect := effect_of_exec h
  refine ⟨fun r hr => heffect.reg_cases hr, fun hflag => ?_⟩
  obtain ⟨f, hf⟩ := heffect.exists_flag hflag
  rw [hf]
  exact flagByte_zero_or_one f

/-- Settles O28. -/
theorem pcChangesOnlyAsTabled : Obligations.PcChangesOnlyAsTabled := fun _ _ _ h => (effect_of_exec h).pc_cases

end Sys2Proof.Machine
end

section
/-! An input an instruction does not use has no effect (spec/10_state.md R42): the ways a meaning ends commute with
putting other inputs in the state. -/

namespace Sys2Proof.Machine

section
variable (s : State) (ins : List StepInput) (n : Nat)

theorem complete_withInputs (o : PcOutcome) :
    complete o (s.withInputs ins n) = withInputsAfter ins n (complete o s) := by
  cases o <;> rfl

theorem withRange_withInputsAfter (base len : Nat) (k : Outcome) :
    withRange base len (withInputsAfter ins n k) = withInputsAfter ins n (withRange base len k) :=
  (apply_ite (withInputsAfter ins n) _ k (raise _)).symm

theorem setReg_withInputs (x : Reg) (b : Byte) :
    setReg x b (s.withInputs ins n) = withInputsAfter ins n (setReg x b s) := rfl

theorem skipIf_withInputs (c : Bool) : skipIf c (s.withInputs ins n) = withInputsAfter ins n (skipIf c s) :=
  complete_withInputs s ins n _

theorem storeAtI_withInputs (bs : List Byte) :
    storeAtI bs (s.withInputs ins n) = withInputsAfter ins n (storeAtI bs s) :=
  withRange_withInputsAfter ins n _ _ (complete .next (s.setMem (s.mem.writeBytes s.i.toNat bs)))

theorem execRet_withInputs : execRet (s.withInputs ins n) = withInputsAfter ins n (execRet s) := by
  cases hs : s.stack <;> simp only [execRet, State.withInputs_stack, hs] <;> rfl

theorem execCall_withInputs (addr : Addr) :
    execCall addr (s.withInputs ins n) = withInputsAfter ins n (execCall addr s) := by
  cases hl : pushStack s.stack s.nextPc <;>
    simp only [execCall, State.withInputs_stack, State.withInputs_nextPc, hl] <;> rfl

theorem execAddI_withInputs (x : Reg) :
    execAddI x (s.withInputs ins n) = withInputsAfter ins n (execAddI x s) := by
  cases hc : s.config.iOverflowSetsVf <;> simp only [execAddI, State.withInputs_config, hc] <;> rfl

theorem execLdVxK_withInputs (x : Reg) (h : s.input.keyPress = (s.withInputs ins n).input.keyPress) :
    execLdVxK x (s.withInputs ins n) = withInputsAfter ins n (execLdVxK x s) := by
  cases hk : s.input.keyPress <;> simp only [execLdVxK, ← h, hk] <;> rfl

theorem execDrw_withInputs (x y : Reg) (k : Rows)
    (h : s.input.collision = (s.withInputs ins n).input.collision) :
    execDrw x y k (s.withInputs ins n) = withInputsAfter ins n (execDrw x y k s) := by
  rw [execDrw, ← h]
  exact withRange_withInputsAfter ins n _ _ (complete .next
    ((s.emit (.draw (s.readV x) (s.readV y) (s.bytesAtI k.val))).writeV VF (flagByte s.input.collision)))

theorem execLdRegs_withInputs (x : Reg) :
    execLdRegs x (s.withInputs ins n) = withInputsAfter ins n (execLdRegs x s) :=
  withRange_withInputsAfter ins n _ _
    (complete .next (s.setRegs (fillRegs s.v 0 (s.bytesAtI (x.val + 1)))))

theorem keyIsDown_withInputs {k : Key} (h : s.input.keysDown = (s.withInputs ins n).input.keysDown) :
    (s.withInputs ins n).keyIsDown k = s.keyIsDown k := by
  rw [State.keyIsDown, ← h, State.keyIsDown]

end

/-- Settles O32: only CXNN, EX9E, EXA1, FX0A and DXYN read the step's input, each the one field `AgreeOn` names. -/
theorem unusedInputsHaveNoEffect : Obligations.UnusedInputsHaveNoEffect := by
  intro i s ins n h
  cases i with
  | rnd x kk =>
    have hrand : s.input.rand = (s.withInputs ins n).input.rand := h
    simp only [exec, execRnd, ← hrand]
    exact setReg_withInputs s ins n x _
  | skp x =>
    simp only [exec, execSkp, keyIsDown_withInputs s ins n h]
    exact skipIf_withInputs s ins n _
  | sknp x =>
    simp only [exec, execSknp, keyIsDown_withInputs s ins n h]
    exact skipIf_withInputs s ins n _
  | ldVxK x => exact execLdVxK_withInputs s ins n x h
  | drw x y k => exact execDrw_withInputs s ins n x y k h
  | ret => exact execRet_withInputs s ins n
  | call addr => exact execCall_withInputs s ins n addr
  | addI x => exact execAddI_withInputs s ins n x
  | seImm | sneImm | seReg | sneReg => exact skipIf_withInputs s ins n _
  | ldB | stRegs => exact storeAtI_withInputs s ins n _
  | ldRegs x => exact execLdRegs_withInputs s ins n x
  | ldImm x | addImm x | ldReg x | or x | and x | xor x | ldVxDt x => exact setReg_withInputs s ins n x _
  | cls | jp | jpV0 | addReg | sub | shr | subn | shl | ldI | ldF | ldDtVx | ldStVx => rfl

end Sys2Proof.Machine
end

section
/-! The host's accessors before the first step (spec/10_state.md R24, R26, R27, R32): each writes one component. -/

namespace Sys2Proof.Machine

section
variable {s : State}

theorem beforeRunning_of_notStepped (h : s.status = .notStepped) (k : Outcome) : beforeRunning s k = k := by
  rw [beforeRunning, h]

theorem State.writeV_onlyChanges (s : State) (x : Reg) (b : Byte) : OnlyChanges s (s.writeV x b) [.v x] := by
  refine onlyChanges_iff.2 ⟨fun r hr => ?_, by simp⟩
  rw [State.writeV_readV, if_neg (by simpa using hr)]

theorem State.writeI_onlyChanges (s : State) (n : Nat) : OnlyChanges s (s.writeI n) [.i] :=
  onlyChanges_iff.2 (by simp)

theorem State.setPc_onlyChanges (s : State) (w : Word) : OnlyChanges s (s.setPc w) [.pc] :=
  onlyChanges_iff.2 (by simp)

theorem State.writeDelay_onlyChanges (s : State) (b : Byte) : OnlyChanges s (s.writeDelay b) [.dt] :=
  onlyChanges_iff.2 (by simp)

theorem State.writeSound_onlyChanges (s : State) (b : Byte) : OnlyChanges s (s.writeSound b) [.st] :=
  onlyChanges_iff.2 (by simp)

theorem readRegister_of_lt {k : Nat} (h : k < 16) (s : State) : readRegister k s = .ok (s.readV ⟨k, h⟩) := dif_pos h

theorem readRegister_of_ge {k : Nat} (h : 16 ≤ k) (s : State) : readRegister k s = .error (.outOfBounds k) :=
  dif_neg (Nat.not_lt.2 h)

theorem writeRegister_of_lt (hs : s.status = .notStepped) {k : Nat} (h : k < 16) (b : Byte) :
    writeRegister k b s = .next (s.writeV ⟨k, h⟩ b) :=
  (beforeRunning_of_notStepped hs _).trans (dif_pos h)

theorem writeRegister_of_ge (hs : s.status = .notStepped) {k : Nat} (h : 16 ≤ k) (b : Byte) :
    writeRegister k b s = .fault (.outOfBounds k) :=
  (beforeRunning_of_notStepped hs _).trans (dif_neg (Nat.not_lt.2 h))

end

/-- Settles O10: each accessor is one write of the state, whose value and frame are known. -/
theorem hostAccessorsCheckAndMask : Obligations.HostAccessorsCheckAndMask := by
  intro s k b w n hs
  have hnow := beforeRunning_of_notStepped hs
  refine ⟨fun hk => ⟨readRegister_of_lt hk s, s.writeV ⟨k, hk⟩ b, writeRegister_of_lt hs hk b, ?_,
      s.writeV_onlyChanges _ b⟩,
    fun hk => ⟨readRegister_of_ge hk s, writeRegister_of_ge hs hk b⟩,
    ⟨s.writeI w.toNat, hnow _, mask12_toNat _, s.writeI_onlyChanges _⟩,
    ⟨s.setPc (mask12 w.toNat), hnow _, mask12_toNat _, s.setPc_onlyChanges _⟩,
    ⟨s.writeDelay (clampByte n), hnow _, clampByte_toInt n, s.writeDelay_onlyChanges _⟩,
    ⟨s.writeSound (clampByte n), hnow _, clampByte_toInt n, s.writeSound_onlyChanges _⟩⟩
  rw [readRegister_of_lt hk, State.writeV_readV_same]

end Sys2Proof.Machine
end

section
/-! Memory (spec/20_memory.md): a bounded read and write of one byte (R62, R63), a block of bytes (R64), and the
canonical form, in which equal reads are equal data (R60). -/

namespace Sys2Proof.Machine

section
variable {m m' : Memory} {a : Nat}

theorem memWrite_of_lt (h : a < 4096) (m : Memory) (b : Byte) : memWrite m a b = .ok (m.write a b) := if_pos h

theorem memWrite_of_ge (h : 4096 ≤ a) (m : Memory) (b : Byte) : memWrite m a b = .error (.outOfBounds a) :=
  if_neg (Nat.not_lt.2 h)

@[simp] theorem Memory.read_cons_self (a : Nat) (b : Byte) (m : Memory) : Memory.read ((a, b) :: m) a = b := if_pos rfl

theorem Memory.read_cons_of_ne {c : Nat} (h : a ≠ c) (b : Byte) (m : Memory) :
    Memory.read ((a, b) :: m) c = m.read c := if_neg h

/-- A listed cell is not 0, so a memory whose cells all lie above it does not read the same there. -/
theorem Memory.not_wfFrom_succ_of_read_eq {lo : Nat} {b : Byte} (hm : Memory.wfFrom lo ((a, b) :: m) = true)
    (hread : ∀ c, c < 4096 → Memory.read ((a, b) :: m) c = m'.read c) : ¬ Memory.wfFrom (a + 1) m' = true := by
  obtain ⟨-, ha, hb, -⟩ := Memory.wfFrom_cons.1 hm
  intro hm'
  have hself := hread a ha
  rw [Memory.read_cons_self, Memory.read_below (Nat.lt_succ_self a) hm'] at hself
  exact hb hself

/-- By induction on both lists: where reads agree, neither list can begin before the other. -/
theorem Memory.wfFrom_ext : ∀ {m m' : Memory} {lo : Nat}, Memory.wfFrom lo m = true → Memory.wfFrom lo m' = true →
    (∀ c, c < 4096 → m.read c = m'.read c) → m = m'
  | [], [], _, _, _, _ => rfl
  | [], (_, _) :: _, _, _, hm', hread =>
    absurd rfl (Memory.not_wfFrom_succ_of_read_eq hm' fun c hc => (hread c hc).symm)
  | (_, _) :: _, [], _, hm, _, hread => absurd rfl (Memory.not_wfFrom_succ_of_read_eq hm hread)
  | (a, b) :: m, (a', b') :: m', _, hm, hm', hread => by
    obtain ⟨-, ha, hb, htail⟩ := Memory.wfFrom_cons.1 hm
    obtain ⟨-, ha', hb', htail'⟩ := Memory.wfFrom_cons.1 hm'
    rcases Nat.lt_trichotomy a a' with hlt | rfl | hgt
    · exact absurd (Memory.wfFrom_cons.2 ⟨hlt, ha', hb', htail'⟩) (Memory.not_wfFrom_succ_of_read_eq hm hread)
    · have hbyte : b = b' := by simpa using hread a ha
      have htails : m = m' := Memory.wfFrom_ext htail htail' fun c hc => by
        by_cases hac : a = c
        · subst hac
          rw [Memory.read_below (Nat.lt_succ_self a) htail, Memory.read_below (Nat.lt_succ_self a) htail']
        · rw [← Memory.read_cons_of_ne hac b m, hread c hc, Memory.read_cons_of_ne hac]
      rw [hbyte, htails]
    · exact absurd (Memory.wfFrom_cons.2 ⟨hgt, ha, hb, htail⟩)
        (Memory.not_wfFrom_succ_of_read_eq hm' fun c hc => (hread c hc).symm)

theorem Memory.ext_of_wf (hm : m.wf = true) (hm' : m'.wf = true) (hread : ∀ c, c < 4096 → m.read c = m'.read c) :
    m = m' := Memory.wfFrom_ext hm hm' hread

section
variable {bs : List Byte} (hm : m.wf = true) (hfit : a + bs.length ≤ 4096)
include hm hfit

/-- The `k`-th byte of a stored block is read back at `a + k`. -/
theorem Memory.read_writeBytes_add {k : Nat} (hk : k < bs.length) :
    (m.writeBytes a bs).read (a + k) = bs.getD k 0#8 := by
  rw [Memory.read_writeBytes bs _ hm hfit, if_pos (by omega), Nat.add_sub_cancel_left]

theorem Memory.read_writeBytes_of_notMem {c : Nat} (hc : Component.mem c ∉ memRange a bs.length) :
    (m.writeBytes a bs).read c = m.read c := by
  rw [Memory.read_writeBytes bs _ hm hfit, if_neg fun h => hc (mem_memRange.2 ⟨c, h, rfl⟩)]

/-- A cell after a block was stored: the byte the block has for it, if any, or what it held. -/
theorem Memory.read_writeBytes_eq_getElem? (c : Nat) :
    (m.writeBytes a bs).read c = if a ≤ c then (bs[c - a]?).getD (m.read c) else m.read c := by
  rw [Memory.read_writeBytes bs c hm hfit]
  by_cases hc : a ≤ c
  · rw [if_pos hc]
    by_cases hlt : c < a + bs.length
    · rw [if_pos ⟨hc, hlt⟩, List.getD_eq_getElem?_getD, List.getElem?_eq_getElem (by omega)]; rfl
    · rw [if_neg (by omega), List.getElem?_eq_none (by omega)]; rfl
  · rw [if_neg (by omega), if_neg hc]

/-- Storing the same block again changes nothing. -/
theorem Memory.writeBytes_idem : (m.writeBytes a bs).writeBytes a bs = m.writeBytes a bs := by
  have hstored := Memory.wf_writeBytes bs hm hfit
  refine Memory.ext_of_wf (Memory.wf_writeBytes bs hstored hfit) hstored fun c _ => ?_
  rw [Memory.read_writeBytes bs c hstored hfit, Memory.read_writeBytes bs c hm hfit]
  split <;> rfl

end

/-- A memory update that keeps the cells outside a range changes nothing else of the state. -/
theorem State.setMem_onlyChanges {s : State} {n : Nat}
    (h : ∀ c, Component.mem c ∉ memRange a n → m.read c = s.mem.read c) :
    OnlyChanges s (s.setMem m) (memRange a n) := by
  refine onlyChanges_iff.2 ?_
  simpa using h

theorem State.setMem_writeBytes_onlyChanges {s : State} {bs : List Byte} (hm : s.mem.wf = true)
    (hfit : a + bs.length ≤ 4096) :
    OnlyChanges s (s.setMem (s.mem.writeBytes a bs)) (memRange a bs.length) :=
  State.setMem_onlyChanges fun _ => Memory.read_writeBytes_of_notMem hm hfit

end

/-- Settles O6. -/
theorem memoryWriteThenRead : Obligations.MemoryWriteThenRead := by
  intro m a b hm
  refine ⟨fun ha => ⟨memRead_of_lt ha, m.write a b, memWrite_of_lt ha m b, Memory.wf_write hm ha b, ?_, ?_⟩,
    fun ha => ⟨memRead_of_ge ha, memWrite_of_ge ha m b⟩⟩
  · rw [memRead_of_lt ha, Memory.read_write hm, if_pos rfl]
  · intro c hc
    rw [Memory.read_write hm, if_neg hc]

/-- Settles O7. -/
theorem canonicalMemoryIsDeterminedByReads : Obligations.CanonicalMemoryIsDeterminedByReads :=
  fun _ _ => Memory.ext_of_wf

end Sys2Proof.Machine
end

section
/-! `load` (spec/20_memory.md R64): stores the whole image, reports that it does not fit, or is refused once running. -/

namespace Sys2Proof.Machine

section
variable {s : State} {image : List Byte} {offset : Nat}

theorem beforeRunning_of_stepped (h : s.status ≠ .notStepped) (k : Outcome) :
    beforeRunning s k = .refused .hostMutationWhileRunning := by
  cases hs : s.status with
  | notStepped => exact absurd hs h
  | ok | waitingForKey => rw [beforeRunning, hs]

theorem load_of_fits (hs : s.status = .notStepped) (hfit : offset + image.length ≤ 4096) :
    load image offset s = .next (s.setMem (s.mem.writeBytes offset image)) :=
  (beforeRunning_of_notStepped hs _).trans (if_neg (Nat.not_lt.2 hfit))

theorem load_of_too_large (hs : s.status = .notStepped) (hlarge : 4096 < offset + image.length) :
    load image offset s = .fault (.imageTooLarge offset image.length) :=
  (beforeRunning_of_notStepped hs _).trans (if_pos hlarge)

theorem load_of_stepped (h : s.status ≠ .notStepped) :
    load image offset s = .refused .hostMutationWhileRunning := beforeRunning_of_stepped h _

/-- A second `load` of the same image finds its bytes already stored. -/
theorem load_loaded (hs : s.status = .notStepped) (hm : s.mem.wf = true) (hfit : offset + image.length ≤ 4096) :
    load image offset (s.setMem (s.mem.writeBytes offset image)) =
      .next (s.setMem (s.mem.writeBytes offset image)) := by
  rw [load_of_fits ((s.setMem_status _).trans hs) hfit, State.setMem_mem, Memory.writeBytes_idem hm hfit]
  rfl

end

/-- Settles O8. -/
theorem loadStoresImageExactly : Obligations.LoadStoresImageExactly := by
  intro s image offset hm
  refine ⟨fun hs hfit => ⟨_, load_of_fits hs hfit, fun k hk => ?_, State.setMem_writeBytes_onlyChanges hm hfit,
    load_loaded hs hm hfit⟩, load_of_too_large, load_of_stepped⟩
  exact Memory.read_writeBytes_add hm hfit hk

end Sys2Proof.Machine
end

section
/-! The fetch (spec/20_memory.md R69, 30_encoding.md R91), and the word placed where it is fetched. -/

namespace Sys2Proof.Machine

section
variable {s : State}

theorem step_of_fetch_error {e : Fault} (h : fetch s = .error e) : step s = .fault e := by
  unfold step
  rw [fetch_beginStep, h]; rfl

/-- Placing an opcode is storing its two bytes. -/
theorem Memory.placeOpcode_of_lt {a : Nat} (h : a + 1 < 4096) (m : Memory) (w : Word) :
    m.placeOpcode a w = m.writeBytes a [highByte w, lowByte w] := if_pos h

theorem State.withFetchWord_toNat (h : s.pc.toNat + 1 < 4096) (w : Word) :
    s.withFetchWord 16 w.toNat = s.setMem (s.mem.writeBytes s.pc.toNat [highByte w, lowByte w]) := by
  have hw : BitVec.ofNat 16 (w.toNat % 2 ^ 16) = w := by
    rw [Nat.mod_eq_of_lt w.isLt, BitVec.ofNat_toNat, BitVec.setWidth_eq]
  rw [State.withFetchWord, hw, Memory.placeOpcode_of_lt h]

end

/-- Settles O16. -/
theorem fetchIsBigEndianAndBounded : Obligations.FetchIsBigEndianAndBounded := by
  intro s _
  refine ⟨fun hlt => ⟨_, fetch_of_lt (by omega), opcodeOfBytes_toNat _ _⟩, fun hlast => ?_⟩
  exact step_of_fetch_error (fetch_of_last hlast)

/-- Settles O18: the two bytes of the word stand at PC and PC + 1. -/
theorem placedWordIsFetched : Obligations.PlacedWordIsFetched := by
  intro s w hm hpc
  have hfit : s.pc.toNat + [highByte w, lowByte w].length ≤ 4096 := hpc
  rw [State.withFetchWord_toNat hpc w]
  refine ⟨?_, State.setMem_writeBytes_onlyChanges hm hfit⟩
  have hhigh : (s.mem.writeBytes s.pc.toNat [highByte w, lowByte w]).read s.pc.toNat = highByte w :=
    Memory.read_writeBytes_add hm hfit Nat.zero_lt_two
  have hlow : (s.mem.writeBytes s.pc.toNat [highByte w, lowByte w]).read (s.pc.toNat + 1) = lowByte w :=
    Memory.read_writeBytes_add hm hfit Nat.one_lt_two
  rw [fetch_of_lt (by simpa using hpc), State.setMem_mem, State.setMem_pc, hhigh, hlow, opcodeOfBytes_bytes]

end Sys2Proof.Machine
end

section
/-! What a meaning does to memory (spec/20_memory.md R61, R66, R77): each cell afterwards holds `byteAfter`. -/

namespace Sys2Proof.Machine

section
variable {i : Instr} {s t : State}

theorem Effect.mem_eq (h : Effect i s t) (hdigits : ∀ x, i ≠ .ldB x) (hregs : ∀ x, i ≠ .stRegs x) :
    t.mem = s.mem := by
  cases h with
  | storesDigits x hi => exact absurd hi (hdigits x)
  | storesRegs x hi => exact absurd hi (hregs x)
  | _ => next ht => simp [ht]

theorem byteAfter_of_storedByte_eq_none (h : ∀ k, storedByte i s k = none) (a : Nat) :
    byteAfter i s a = s.mem.read a := by
  rw [byteAfter, h, Option.getD_none, ite_self]

/-- A storing instruction whose bytes `bs` are those of `storedByte` leaves `byteAfter` in every cell. -/
theorem storeAtI_mem_read {bs : List Byte} (hm : s.mem.wf = true) (h : storeAtI bs s = .next t)
    (hstored : ∀ k, storedByte i s k = bs[k]?) (a : Nat) : t.mem.read a = byteAfter i s a := by
  obtain ⟨hnil | hfit, rfl⟩ := storeAtI_eq_next h
  · obtain rfl := List.eq_nil_of_length_eq_zero hnil
    exact (byteAfter_of_storedByte_eq_none hstored a).symm
  · rw [byteAfter, hstored]
    exact Memory.read_writeBytes_eq_getElem? hm hfit a

theorem exec_mem_read (hm : s.mem.wf = true) (h : exec i s = .next t) (a : Nat) :
    t.mem.read a = byteAfter i s a := by
  cases i with
  | ldB x => exact storeAtI_mem_read hm h (storedByte_ldB x s) a
  | stRegs x => exact storeAtI_mem_read hm h (storedByte_stRegs x s) a
  | _ =>
    rw [(effect_of_exec h).mem_eq nofun nofun]
    exact (byteAfter_of_storedByte_eq_none (fun _ => rfl) a).symm

/-- FX33 stores at I to I + 2, FX55 at I to I + x, and nothing else stores. -/
theorem stores_of_storedByte_eq_some {k : Nat} {b : Byte} (h : storedByte i s k = some b) :
    (∃ x, i = .ldB x ∧ k ≤ 2) ∨ ∃ x : Reg, i = .stRegs x ∧ k ≤ x.val := by
  cases i with
  | ldB x =>
    obtain ⟨hk, -⟩ := List.getElem?_eq_some_iff.1 ((storedByte_ldB x s k).symm.trans h)
    exact .inl ⟨x, rfl, Nat.le_of_lt_succ hk⟩
  | stRegs x =>
    obtain ⟨hk, -⟩ := List.getElem?_eq_some_iff.1 ((storedByte_stRegs x s k).symm.trans h)
    rw [State.regsUpTo_length] at hk
    exact .inr ⟨x, rfl, Nat.le_of_lt_succ hk⟩
  | _ => cases h

/-- A cell changes only where a byte is stored. -/
theorem exists_storedByte_of_byteAfter_ne {a : Nat} (h : byteAfter i s a ≠ s.mem.read a) :
    s.i.toNat ≤ a ∧ ∃ b, storedByte i s (a - s.i.toNat) = some b := by
  have hle : s.i.toNat ≤ a := by
    by_contra hlt
    exact h (if_neg hlt)
  refine ⟨hle, Option.ne_none_iff_exists'.1 fun hnone => h ?_⟩
  rw [byteAfter, hnone, Option.getD_none, ite_self]

end

/-- Settles O9: the fetch reads two cells, and each holds `byteAfter`. -/
theorem storedRegistersAreFetched : Obligations.StoredRegistersAreFetched := by
  intro i s t hm h hpc
  rw [fetch_of_lt hpc, exec_mem_read hm h, exec_mem_read hm h]

/-- Settles O23: a cell that reads differently is one for which the instruction stores a byte. -/
theorem onlyStoringInstructionsChangeMemory : Obligations.OnlyStoringInstructionsChangeMemory := by
  intro i s t a hm h hne
  rw [exec_mem_read hm h] at hne
  obtain ⟨hle, b, hb⟩ := exists_storedByte_of_byteAfter_ne hne
  obtain ⟨x, rfl, hk⟩ | ⟨x, rfl, hk⟩ := stores_of_storedByte_eq_some hb
  · exact .inl ⟨x, rfl, hle, by omega⟩
  · exact .inr ⟨x, rfl, hle, by omega⟩

end Sys2Proof.Machine
end

section
/-! The encoder's formats (spec/30_encoding.md R106): which fields an opcode of each format has, and the opcode as its
match value with the operand fields put in. -/

namespace Sys2Proof

section
variable {w m : Word}

/-! ### The fields of an encoded opcode, for a match value with no operand bit set -/

theorem eq_ofNat_fieldOp (hm : fieldAddr m = 0#12) : m = BitVec.ofNat 16 (4096 * (fieldOp m).val) := by
  conv_lhs => rw [← wordNNN_fields (w := m) rfl, hm, wordNNN]
  exact BitVec.or_zero

theorem fields_of_wordNNN (addr : Addr) (hm : fieldAddr m = 0#12) :
    fieldOp (wordNNN m addr) = fieldOp m ∧ fieldAddr (wordNNN m addr) = addr ∧
    (fieldX (wordNNN m addr)).val = addr.toNat / 256 := by
  obtain ⟨hop, haddr, hx⟩ := fields_wordNNN (fieldOp m) addr (congrArg (wordNNN · addr) (eq_ofNat_fieldOp hm))
  exact ⟨Fin.ext hop, haddr, hx⟩

theorem fields_of_wordXNN (x : Reg) (kk : Byte) (hm : fieldAddr m = 0#12) :
    fieldOp (wordXNN m x kk) = fieldOp m ∧ fieldX (wordXNN m x kk) = x ∧ fieldKk (wordXNN m x kk) = kk := by
  obtain ⟨hop, hfields⟩ := fields_wordXNN (fieldOp m) x kk (congrArg (wordXNN · x kk) (eq_ofNat_fieldOp hm))
  exact ⟨Fin.ext hop, hfields⟩

theorem fields_of_wordXYN (x y : Reg) (n : Rows) (hm : fieldAddr m = 0#12) :
    fieldOp (wordXYN m x y n) = fieldOp m ∧ fieldX (wordXYN m x y n) = x ∧ fieldY (wordXYN m x y n) = y ∧
    fieldN (wordXYN m x y n) = n := by
  obtain ⟨hop, hfields⟩ := fields_wordXYN (fieldOp m) x y n (congrArg (wordXYN · x y n) (eq_ofNat_fieldOp hm))
  exact ⟨Fin.ext hop, hfields⟩

/-- Format X is format XNN whose `kk` is part of the match value. -/
theorem wordX_or (m : Word) (x : Reg) (kk : Byte) : wordX (m ||| kk.setWidth 16) x = wordXNN m x kk := by
  rw [wordX, wordXNN, BitVec.or_assoc, BitVec.or_comm (kk.setWidth 16), BitVec.or_assoc]

/-- The match value of format X may hold any `kk`. -/
theorem fields_of_wordX (x : Reg) (hm : fieldX m = 0) :
    fieldOp (wordX m x) = fieldOp m ∧ fieldX (wordX m x) = x ∧ fieldKk (wordX m x) = fieldKk m := by
  have hsplit : BitVec.ofNat 16 (4096 * (fieldOp m).val) ||| (fieldKk m).setWidth 16 = m := by
    conv_rhs => rw [← wordXNN_fields (w := m) rfl, hm, wordXNN]
    exact congrArg (· ||| _) BitVec.or_zero.symm
  have hw : wordX m x = wordXNN (BitVec.ofNat 16 (4096 * (fieldOp m).val)) x (fieldKk m) := by rw [← wordX_or, hsplit]
  obtain ⟨hop, hfields⟩ := fields_wordXNN (fieldOp m) x (fieldKk m) hw
  exact ⟨Fin.ext hop, hfields⟩

/-! ### An opcode from its selectors and its operand fields -/

theorem wordXY_fields {p n : Fin 16} (hop : (fieldOp w).val = p.val) (hn : (fieldN w).val = n.val) :
    wordXYN (BitVec.ofNat 16 (4096 * p.val)) (fieldX w) (fieldY w) n = w := by
  rw [← Fin.ext hn]
  exact wordXYN_fields hop

theorem wordX_fields {p : Fin 16} {k : Nat} (hop : (fieldOp w).val = p.val) (hk : (fieldKk w).toNat = k) :
    wordX (BitVec.ofNat 16 (4096 * p.val) ||| (BitVec.ofNat 8 k).setWidth 16) (fieldX w) = w := by
  rw [wordX_or, ← hk, BitVec.ofNat_toNat, BitVec.setWidth_eq]
  exact wordXNN_fields hop

/-- The top nibble of `addr` is `x` (30_encoding.md R92). -/
theorem fieldX_val_eq (w : Word) : (fieldX w).val = (fieldAddr w).toNat / 256 := by
  rw [fieldX, nibbleField_val, fieldAddr_toNat]
  omega

/-! ### An opcode from the bits a row's mask keeps and its operand fields -/

theorem and_mask_op (w : Word) : w &&& 0xF000#16 = BitVec.ofNat 16 (4096 * (fieldOp w).val) := by
  have hop : ∀ p : Fin 16, BitVec.ofNat 16 (4096 * p.val) &&& 0xF000#16 = BitVec.ofNat 16 (4096 * p.val) := by decide
  conv_lhs => rw [← wordNNN_fields (w := w) rfl, wordNNN_and_mask, hop]

theorem and_mask_op_n (w : Word) :
    w &&& 0xF00F#16 = BitVec.ofNat 16 (4096 * (fieldOp w).val) ||| BitVec.ofNat 16 (fieldN w).val := by
  have hop : ∀ p : Fin 16, BitVec.ofNat 16 (4096 * p.val) &&& 0xF00F#16 = BitVec.ofNat 16 (4096 * p.val) := by decide
  conv_lhs => rw [← wordXYN_fields (w := w) rfl, wordXY_and_mask, hop]

theorem and_mask_op_kk (w : Word) :
    w &&& 0xF0FF#16 = BitVec.ofNat 16 (4096 * (fieldOp w).val) ||| (fieldKk w).setWidth 16 := by
  have hop : ∀ p : Fin 16, BitVec.ofNat 16 (4096 * p.val) &&& 0xF0FF#16 = BitVec.ofNat 16 (4096 * p.val) := by decide
  have hkk : (fieldKk w).setWidth 16 &&& 0xF0FF#16 = (fieldKk w).setWidth 16 := by
    ext i hi
    interval_cases i <;> simp
  conv_lhs => rw [← wordXNN_fields (w := w) rfl, ← wordX_or, wordX_and_mask, or_and_mask, hop, hkk]

theorem wordNNN_of_and_mask (h : w &&& 0xF000#16 = m) : wordNNN m (fieldAddr w) = w := by
  rw [← h, and_mask_op]
  exact wordNNN_fields rfl

theorem wordXNN_of_and_mask (h : w &&& 0xF000#16 = m) : wordXNN m (fieldX w) (fieldKk w) = w := by
  rw [← h, and_mask_op]
  exact wordXNN_fields rfl

theorem wordXYN_of_and_mask (h : w &&& 0xF000#16 = m) : wordXYN m (fieldX w) (fieldY w) (fieldN w) = w := by
  rw [← h, and_mask_op]
  exact wordXYN_fields rfl

/-- Format XY is format XYN whose `n` is part of the match value. -/
theorem wordXYN_or (m : Word) (x y : Reg) (n : Rows) :
    wordXYN (m ||| BitVec.ofNat 16 n.val) x y 0 = wordXYN m x y n := by
  simp only [wordXYN, Fin.val_zero, BitVec.or_zero]
  ac_rfl

theorem wordXY_of_and_mask {n : Rows} (h : w &&& 0xF00F#16 = m ||| BitVec.ofNat 16 n.val) :
    wordXYN m (fieldX w) (fieldY w) n = w := by
  rw [← wordXYN_or, ← h, and_mask_op_n, wordXYN_or]
  exact wordXYN_fields rfl

theorem wordX_of_and_mask (h : w &&& 0xF0FF#16 = m) : wordX m (fieldX w) = w := by
  rw [← h, and_mask_op_kk, wordX_or]
  exact wordXNN_fields rfl

end

end Sys2Proof
end

section
/-! Decode and encode are inverse to each other (spec/30_encoding.md R95, R106), and the decoder answers nothing but an
instruction or Unknown of the whole opcode (R101). -/

namespace Sys2Proof

theorem decode_encode (i : Instr) (hi : i.WellFormed = true) : decode (encode i) = .instr i := by
  cases i with
  | cls | ret => rfl
  | jp addr | call addr | ldI addr =>
    simp (disch := decide) only [encode, decode, fields_of_wordNNN]
    rfl
  | jpV0 addr x =>
    have hx : fieldX (wordNNN 0xB000 addr) = x := by
      obtain ⟨-, -, hx⟩ := fields_of_wordNNN (m := 0xB000) addr rfl
      exact Fin.ext (hx.trans (beq_iff_eq.1 hi).symm)
    simp (disch := decide) only [encode, decode, fields_of_wordNNN, hx]
    rfl
  | seImm x kk | sneImm x kk | ldImm x kk | addImm x kk | rnd x kk =>
    simp (disch := decide) only [encode, decode, fields_of_wordXNN]
    rfl
  | seReg x y | sneReg x y | drw x y n =>
    simp (disch := decide) only [encode, decode, fields_of_wordXYN]
    rfl
  | ldReg x y | or x y | and x y | xor x y | addReg x y | sub x y | shr x y | subn x y | shl x y =>
    simp (disch := decide) only [encode, decode, decodeGroup8, fields_of_wordXYN]
    rfl
  | skp x | sknp x =>
    simp (disch := decide) only [encode, decode, decodeGroupE, fields_of_wordX]
    rfl
  | ldVxDt x | ldVxK x | ldDtVx x | ldStVx x | addI x | ldF x | ldB x | stRegs x | ldRegs x =>
    simp (disch := decide) only [encode, decode, decodeGroupF, fields_of_wordX]
    rfl

/-- What a decoder may answer for the opcode `w`: a well-formed instruction whose opcode is `w`, or Unknown of `w`. -/
def Descriptor.Describes (w : Word) : Descriptor → Prop
  | .instr i => i.WellFormed = true ∧ encode i = w
  | .unknown op => op = w

section
variable {w : Word}

theorem decodeGroup0_describes (w : Word) : (decodeGroup0 w).Describes w := by
  unfold decodeGroup0
  split
  · next hw => exact ⟨rfl, hw.symm⟩
  · split
    · next hw => exact ⟨rfl, hw.symm⟩
    · exact rfl

theorem decodeGroup8_describes (hop : (fieldOp w).val = 0x8) : (decodeGroup8 w).Describes w := by
  unfold decodeGroup8
  split
  case h_10 => exact rfl
  all_goals next hn => exact ⟨rfl, wordXY_fields (p := 0x8) hop hn⟩

theorem decodeGroupE_describes (hop : (fieldOp w).val = 0xE) : (decodeGroupE w).Describes w := by
  unfold decodeGroupE
  split
  case h_3 => exact rfl
  all_goals next hk => exact ⟨rfl, wordX_fields (p := 0xE) hop hk⟩

theorem decodeGroupF_describes (hop : (fieldOp w).val = 0xF) : (decodeGroupF w).Describes w := by
  unfold decodeGroupF
  split
  case h_10 => exact rfl
  all_goals next hk => exact ⟨rfl, wordX_fields (p := 0xF) hop hk⟩

/-- Groups 5 and 9: an instruction of format XY where `n` is 0, else Unknown. -/
theorem describes_of_n_eq_zero {i : Instr} (h : fieldN w = 0 → i.WellFormed = true ∧ encode i = w) :
    (if fieldN w = 0 then Descriptor.instr i else .unknown w).Describes w := by
  split
  · next hn => exact h hn
  · exact rfl

theorem decode_describes (w : Word) : (decode w).Describes w := by
  unfold decode
  split
  · exact decodeGroup0_describes w
  · next hop => exact ⟨rfl, wordNNN_fields (m := 0x1) hop⟩
  · next hop => exact ⟨rfl, wordNNN_fields (m := 0x2) hop⟩
  · next hop => exact ⟨rfl, wordXNN_fields (m := 0x3) hop⟩
  · next hop => exact ⟨rfl, wordXNN_fields (m := 0x4) hop⟩
  · next hop => exact describes_of_n_eq_zero fun hn => ⟨rfl, wordXY_fields (p := 0x5) hop (congrArg Fin.val hn)⟩
  · next hop => exact ⟨rfl, wordXNN_fields (m := 0x6) hop⟩
  · next hop => exact ⟨rfl, wordXNN_fields (m := 0x7) hop⟩
  · next hop => exact decodeGroup8_describes hop
  · next hop => exact describes_of_n_eq_zero fun hn => ⟨rfl, wordXY_fields (p := 0x9) hop (congrArg Fin.val hn)⟩
  · next hop => exact ⟨rfl, wordNNN_fields (m := 0xA) hop⟩
  · next hop => exact ⟨beq_iff_eq.2 (fieldX_val_eq w), wordNNN_fields (m := 0xB) hop⟩
  · next hop => exact ⟨rfl, wordXNN_fields (m := 0xC) hop⟩
  · next hop => exact ⟨rfl, wordXYN_fields (m := 0xD) hop⟩
  · next hop => exact decodeGroupE_describes hop
  · next hop => exact decodeGroupF_describes hop
  · exact rfl

theorem encode_of_decode {i : Instr} (h : decode w = .instr i) : i.WellFormed = true ∧ encode i = w := by
  have hw := decode_describes w
  rwa [h] at hw

theorem eq_of_decode_unknown {op : Word} (h : decode w = .unknown op) : op = w := by
  have hw := decode_describes w
  rwa [h] at hw

end

/-- Settles O1, by running the decoder. -/
theorem specOpcodesDecode : Obligations.SpecOpcodesDecode := by
  unfold Obligations.SpecOpcodesDecode
  decide

/-- Settles O2: `decode` reads from an encoded opcode the selectors of its match value and the operands. -/
theorem decodeOfEncodeIsIdentity : Obligations.DecodeOfEncodeIsIdentity := decode_encode

/-- Settles O3: whatever the decoder answers describes the opcode. -/
theorem encodeOfDecodeIsIdentity : Obligations.EncodeOfDecodeIsIdentity := fun _ _ => encode_of_decode

end Sys2Proof
end

section
/-! The opcode map (spec/30_encoding.md R95) against the decoding procedure (R96): by the round trip, a word decodes to
an instruction exactly when it is the opcode of one, and that is when a row selects it. -/

namespace Sys2Proof

section
variable {w : Word}

theorem exists_row_of_instr (i : Instr) : Laws.RowMatch.Statement i := by
  open Laws.RowMatch in
  cases i
  exacts [cls, ret, jp _, call _, seImm _ _, sneImm _ _, seReg _ _, ldImm _ _, addImm _ _, ldReg _ _, or _ _, and _ _,
    xor _ _, addReg _ _, sub _ _, shr _ _, subn _ _, shl _ _, sneReg _ _, ldI _, jpV0 _ _, rnd _ _, drw _ _ _, skp _,
    sknp _, ldVxDt _, ldVxK _, ldDtVx _, ldStVx _, addI _, ldF _, ldB _, stRegs _, ldRegs _]

/-- What a row of the opcode map stands for: `w` is the opcode of an instruction of the row. -/
def OpcodeRow.Encodes (r : OpcodeRow) (w : Word) : Prop :=
  ∃ i : Instr, i.WellFormed = true ∧ i.mnemonic = r.mnemonic ∧ encode i = w

/-- Rows 00E0 to 8XY7: a word that has the row's fixed bits is the opcode of the row's instruction with the operands
read from the word. -/
theorem lowRows_encode : ∀ r ∈ lowRows, r.Selects w → r.Encodes w := by
  simp only [lowRows, List.forall_mem_cons]
  exact ⟨fun h => ⟨.cls, rfl, rfl, h.symm.trans BitVec.and_allOnes⟩,
    fun h => ⟨.ret, rfl, rfl, h.symm.trans BitVec.and_allOnes⟩,
    fun h => ⟨.jp _, rfl, rfl, wordNNN_of_and_mask h⟩,
    fun h => ⟨.call _, rfl, rfl, wordNNN_of_and_mask h⟩,
    fun h => ⟨.seImm _ _, rfl, rfl, wordXNN_of_and_mask h⟩,
    fun h => ⟨.sneImm _ _, rfl, rfl, wordXNN_of_and_mask h⟩,
    fun h => ⟨.seReg _ _, rfl, rfl, wordXY_of_and_mask h⟩,
    fun h => ⟨.ldImm _ _, rfl, rfl, wordXNN_of_and_mask h⟩,
    fun h => ⟨.addImm _ _, rfl, rfl, wordXNN_of_and_mask h⟩,
    fun h => ⟨.ldReg _ _, rfl, rfl, wordXY_of_and_mask h⟩,
    fun h => ⟨.or _ _, rfl, rfl, wordXY_of_and_mask h⟩,
    fun h => ⟨.and _ _, rfl, rfl, wordXY_of_and_mask h⟩,
    fun h => ⟨.xor _ _, rfl, rfl, wordXY_of_and_mask h⟩,
    fun h => ⟨.addReg _ _, rfl, rfl, wordXY_of_and_mask h⟩,
    fun h => ⟨.sub _ _, rfl, rfl, wordXY_of_and_mask h⟩,
    fun h => ⟨.shr _ _, rfl, rfl, wordXY_of_and_mask h⟩,
    fun h => ⟨.subn _ _, rfl, rfl, wordXY_of_and_mask h⟩,
    nofun⟩

/-- The same for rows 8XYE to FX65. -/
theorem highRows_encode : ∀ r ∈ highRows, r.Selects w → r.Encodes w := by
  simp only [highRows, List.forall_mem_cons]
  exact ⟨fun h => ⟨.shl _ _, rfl, rfl, wordXY_of_and_mask h⟩,
    fun h => ⟨.sneReg _ _, rfl, rfl, wordXY_of_and_mask h⟩,
    fun h => ⟨.ldI _, rfl, rfl, wordNNN_of_and_mask h⟩,
    fun h => ⟨.jpV0 _ (fieldX w), beq_iff_eq.2 (fieldX_val_eq w), rfl, wordNNN_of_and_mask h⟩,
    fun h => ⟨.rnd _ _, rfl, rfl, wordXNN_of_and_mask h⟩,
    fun h => ⟨.drw _ _ _, rfl, rfl, wordXYN_of_and_mask h⟩,
    fun h => ⟨.skp _, rfl, rfl, wordX_of_and_mask h⟩,
    fun h => ⟨.sknp _, rfl, rfl, wordX_of_and_mask h⟩,
    fun h => ⟨.ldVxDt _, rfl, rfl, wordX_of_and_mask h⟩,
    fun h => ⟨.ldVxK _, rfl, rfl, wordX_of_and_mask h⟩,
    fun h => ⟨.ldDtVx _, rfl, rfl, wordX_of_and_mask h⟩,
    fun h => ⟨.ldStVx _, rfl, rfl, wordX_of_and_mask h⟩,
    fun h => ⟨.addI _, rfl, rfl, wordX_of_and_mask h⟩,
    fun h => ⟨.ldF _, rfl, rfl, wordX_of_and_mask h⟩,
    fun h => ⟨.ldB _, rfl, rfl, wordX_of_and_mask h⟩,
    fun h => ⟨.stRegs _, rfl, rfl, wordX_of_and_mask h⟩,
    fun h => ⟨.ldRegs _, rfl, rfl, wordX_of_and_mask h⟩,
    nofun⟩

theorem decode_of_selects {r : OpcodeRow} (hr : r ∈ opcodeRows) (h : r.Selects w) :
    ∃ i, decode w = .instr i ∧ i.mnemonic = r.mnemonic := by
  have henc : r.Encodes w := (List.mem_append.1 hr).elim (lowRows_encode r · h) (highRows_encode r · h)
  obtain ⟨i, hwf, hmn, rfl⟩ := henc
  exact ⟨i, decode_encode i hwf, hmn⟩

theorem decode_of_not_selects (h : ∀ r ∈ opcodeRows, ¬ r.Selects w) : decode w = .unknown w := by
  cases hd : decode w with
  | unknown op => rw [eq_of_decode_unknown hd]
  | instr i =>
    obtain ⟨-, rfl⟩ := encode_of_decode hd
    obtain ⟨r, hr, -, hsel⟩ := exists_row_of_instr i
    exact absurd hsel (h r hr)

theorem mnemonic_injOn_opcodeRows {r r' : OpcodeRow} (hr : r ∈ opcodeRows) (hr' : r' ∈ opcodeRows)
    (h : r.mnemonic = r'.mnemonic) : r = r' :=
  List.inj_on_of_nodup_map (f := OpcodeRow.mnemonic) (by decide) hr hr' h

theorem row_unique {r r' : OpcodeRow} (hr : r ∈ opcodeRows) (hr' : r' ∈ opcodeRows) (h : r.Selects w)
    (h' : r'.Selects w) : r = r' := by
  obtain ⟨i, hi, hmn⟩ := decode_of_selects hr h
  obtain ⟨i', hi', hmn'⟩ := decode_of_selects hr' h'
  obtain rfl : i = i' := Descriptor.instr.inj (hi.symm.trans hi')
  exact mnemonic_injOn_opcodeRows hr hr' (hmn.symm.trans hmn')

theorem decode_group0 (hw : w.toNat < 0x1000) : decode w = decodeGroup0 w := by
  have hop : (fieldOp w).val = 0 := by
    rw [fieldOp, nibbleField_val]
    omega
  simp only [decode, hop]

theorem decodeGroup0_eq_unknown (hcls : w ≠ 0x00E0#16) (hret : w ≠ 0x00EE#16) : decodeGroup0 w = .unknown w := by
  rw [decodeGroup0, if_neg hcls, if_neg hret]

end

/-- Settles O4: a selected word is the opcode of an instruction of the row and decodes to it (O2); a decoded word is
selected by the row of its instruction (O3); the mnemonics of the rows differ. -/
theorem decodeAgreesWithOpcodeMap : Obligations.DecodeAgreesWithOpcodeMap :=
  ⟨fun _ _ => decode_of_selects, fun _ => decode_of_not_selects, fun _ _ hr _ hr' => row_unique hr hr'⟩

theorem Machine.step_of_decode_unknown {s : Machine.State} {w op : Word} (hw : Machine.fetch s.beginStep = .ok w)
    (hd : decode w = .unknown op) : Machine.step s = .fault (.unknownInstruction op) := by
  unfold Machine.step
  rw [hw]
  simp only [hd, Machine.raise]

/-- Settles O5: the first part by O4; in group 0 the decoder knows two words only, so no row selects another. -/
theorem unknownOpcodeIsReported : Obligations.UnknownOpcodeIsReported := by
  refine ⟨fun s w hw hsel => ?_, fun w hlt hcls hret r hr hsel => ?_⟩
  · have hd := decode_of_not_selects hsel
    exact ⟨hd, Machine.step_of_decode_unknown hw hd⟩
  · obtain ⟨i, hi, -⟩ := decode_of_selects hr hsel
    rw [decode_group0 hlt, decodeGroup0_eq_unknown hcls hret] at hi
    cases hi

end Sys2Proof
end

section
/-! The cycle (spec/40_cycle_and_flow.md R120, R123): the step runs what it fetched and decoded, and PC advances modulo
4096. -/

namespace Sys2Proof.Machine

/-- Settles O17: the clock changes no byte the fetch reads. -/
theorem stepRunsDecodedInstruction : Obligations.StepRunsDecodedInstruction := by
  intro s i hpc hi
  have hfetch : fetch s.beginStep = .ok (opcodeOfBytes (s.mem.read s.pc.toNat) (s.mem.read (s.pc.toNat + 1))) :=
    (fetch_beginStep s).trans (fetch_of_lt hpc)
  exact step_of_decode hfetch hi

/-- Settles O19. -/
theorem pcAdvanceWraps : Obligations.PcAdvanceWraps := fun s => ⟨s.nextPc_toNat, s.skipPc_toNat⟩

end Sys2Proof.Machine
end

section
/-! Control transfer (spec/40_cycle_and_flow.md R125 to R128): the outcome of 00EE, 1NNN, 2NNN and BNNN, one equation per
case; each goes to its target and changes nothing but PC, the status and, for 00EE and 2NNN, the stack. -/

namespace Sys2Proof.Machine

section
variable {s : State}

/-! ### The targets -/

theorem mask12_toNat_eq_and (w : Word) : mask12 w.toNat = w &&& 0x0FFF#16 := by
  apply BitVec.eq_of_toNat_eq
  rw [mask12_toNat, BitVec.toNat_and]
  exact (Nat.and_two_pow_sub_one_eq_mod _ 12).symm

/-- An address fits into PC. -/
theorem mask12_addr (addr : Addr) : mask12 addr.toNat = addr.setWidth 16 := by
  have haddr := addr.isLt
  apply BitVec.eq_of_toNat_eq
  rw [mask12_toNat, BitVec.toNat_setWidth]
  omega

theorem mask12_nextPc (s : State) : mask12 s.nextPc.toNat = s.nextPc := mask12_of_lt (mask12_lt _)

theorem State.jumpOffset_of_false (h : s.config.jumpOffsetUsesVx = false) (x : Reg) : s.jumpOffset x = s.readV 0 := by
  simp [State.jumpOffset, h]

theorem State.jumpOffset_of_true (h : s.config.jumpOffsetUsesVx = true) (x : Reg) : s.jumpOffset x = s.readV x := by
  simp [State.jumpOffset, h]

/-! ### The outcomes -/

theorem exec_jp (addr : Addr) (s : State) : exec (.jp addr) s = .next (s.completed (.set addr.toNat)) := rfl

theorem exec_jpV0 (addr : Addr) (x : Reg) (s : State) :
    exec (.jpV0 addr x) s = .next (s.completed (.set (addr.toNat + (s.jumpOffset x).toNat))) := rfl

theorem exec_ret_of_cons {w : Word} {l : List Word} (h : s.stack = w :: l) :
    exec .ret s = .next ((s.setStack l).completed (.set w.toNat)) := by
  simp only [exec, execRet, h, popStack_cons, complete_eq]

theorem exec_ret_of_nil (h : s.stack = []) : exec .ret s = .fault .stackUnderflow := by
  simp only [exec, execRet, h, popStack_nil, raise]

theorem exec_call_of_lt (h : s.stack.length < 12) (addr : Addr) :
    exec (.call addr) s = .next ((s.setStack (s.nextPc :: s.stack)).completed (.set addr.toNat)) := by
  simp only [exec, execCall, pushStack_of_lt h, complete_eq]

theorem exec_call_of_ge (h : 12 ≤ s.stack.length) (addr : Addr) : exec (.call addr) s = .fault .stackOverflow := by
  simp only [exec, execCall, pushStack_of_ge h, raise]

theorem step_of_pc_last (h : s.pc.toNat = 4095) : step s = .fault (.outOfBounds 4096) :=
  step_of_fetch_error (fetch_of_last h)

/-! ### The frames -/

theorem State.completed_onlyChanges (s : State) (o : PcOutcome) : OnlyChanges s (s.completed o) [.pc, .status] :=
  onlyChanges_iff.2 (by simp)

/-- A jump to where PC stands changes only the recorded status. -/
theorem State.completed_onlyChanges_status {o : PcOutcome} (h : o.target s = s.pc) :
    OnlyChanges s (s.completed o) [.status] :=
  onlyChanges_iff.2 (by simp [h])

theorem State.setStack_completed_onlyChanges (s : State) (l : List Word) (o : PcOutcome) :
    OnlyChanges s ((s.setStack l).completed o) [.pc, .stack, .status] :=
  onlyChanges_iff.2 (by simp)

/-! ### Calls in a row -/

theorem execList_cons_of_next {i : Instr} {t : State} (h : exec i s = .next t) (is : List Instr) :
    execList (i :: is) s = execList is t := by
  rw [execList, h]

theorem execList_call_ret (h : s.stack.length < 12) (addr : Addr) :
    execList [.call addr, .ret] s =
      .next ((((s.setStack (s.nextPc :: s.stack)).completed (.set addr.toNat)).setStack s.stack).completed
        (.set s.nextPc.toNat)) := by
  rw [execList_cons_of_next (exec_call_of_lt h addr), execList_cons_of_next (exec_ret_of_cons rfl), execList]

/-- Calls push one entry each as long as 12 are enough. -/
theorem exists_execList_calls (addrs : List Addr) {s : State} (h : s.stack.length + addrs.length ≤ 12) :
    ∃ t, execList (addrs.map .call) s = .next t ∧ t.stack.length = s.stack.length + addrs.length := by
  induction addrs generalizing s with
  | nil => exact ⟨s, rfl, rfl⟩
  | cons addr addrs ih =>
    rw [List.length_cons] at h
    have hcall := exec_call_of_lt (s := s) (by omega) addr
    obtain ⟨t, ht, hdepth⟩ := ih (s := (s.setStack (s.nextPc :: s.stack)).completed (.set addr.toNat))
      (by rw [State.completed_stack, State.setStack_stack, List.length_cons]; omega)
    refine ⟨t, (execList_cons_of_next hcall _).trans ht, ?_⟩
    rw [hdepth, State.completed_stack, State.setStack_stack, List.length_cons, List.length_cons]
    omega

end

/-- Settles O34. -/
theorem returnPopsOrUnderflows : Obligations.ReturnPopsOrUnderflows := by
  refine ⟨decode_encode .ret rfl, fun s => ⟨fun w rest hs => ?_, exec_ret_of_nil⟩⟩
  exact ⟨_, exec_ret_of_cons hs, mask12_toNat_eq_and w, rfl, mask12_of_lt, rfl,
    s.setStack_completed_onlyChanges rest _⟩

/-- Settles O35: after a jump to 0xFFF the second byte of the fetch lies past memory. -/
theorem jumpGoesToAddress : Obligations.JumpGoesToAddress := by
  intro s addr
  refine ⟨decode_encode (.jp addr) rfl, _, exec_jp addr s, mask12_addr addr, rfl, s.completed_onlyChanges _,
    fun hself => ?_, fun hlast => ?_⟩
  · exact State.completed_onlyChanges_status ((mask12_addr addr).trans hself.symm)
  · subst hlast
    exact step_of_pc_last rfl

/-- Settles O36. -/
theorem callPushesOrOverflows : Obligations.CallPushesOrOverflows := by
  intro s addr
  refine ⟨decode_encode (.call addr) rfl, fun hlt => ?_, fun hfull => exec_call_of_ge hfull.ge addr⟩
  exact ⟨_, exec_call_of_lt hlt addr, mask12_addr addr, rfl, rfl, s.setStack_completed_onlyChanges _ _⟩

/-- Settles O37: BNNN is well formed because `x` is the top nibble of `addr`. -/
theorem jumpWithOffsetAddsRegister : Obligations.JumpWithOffsetAddsRegister := by
  intro s addr x hx
  have hpc : (s.completed (.set (addr.toNat + (s.jumpOffset x).toNat))).pc.toNat =
      (addr.toNat + (s.jumpOffset x).toNat) % 4096 := mask12_toNat _
  refine ⟨decode_encode (.jpV0 addr x) (beq_iff_eq.2 hx), _, exec_jpV0 addr x s, fun hflag => ?_, fun hflag => ?_, rfl,
    s.completed_onlyChanges _⟩
  · rw [hpc, State.jumpOffset_of_false hflag]
  · rw [hpc, State.jumpOffset_of_true hflag]

/-- Settles O38: the entry the call pushed is the one the return pops. -/
theorem callThenReturnRestores : Obligations.CallThenReturnRestores := by
  intro s addr hlt
  exact ⟨_, execList_call_ret hlt addr, mask12_nextPc s, onlyChanges_iff.2 (by simp)⟩

/-- Settles O39. -/
theorem twelveCallsThenOverflow : Obligations.TwelveCallsThenOverflow := by
  intro s addrs hempty hcalls
  have hdepth : s.stack.length + addrs.length = 12 := by rw [hempty, hcalls]; rfl
  obtain ⟨t, ht, hfull⟩ := exists_execList_calls addrs hdepth.le
  rw [hdepth] at hfull
  exact ⟨t, ht, hfull, exec_call_of_ge hfull.ge⟩

end Sys2Proof.Machine
end

section
/-! The conditional skips (spec/41_skips.md): each is `skipIf` of its condition, which goes to `SkipPC` or `NextPC` and
changes nothing else (R146). -/

namespace Sys2Proof.Machine

/-! ### What a skip does -/

/-- A skip whose condition decides `p` goes to `SkipPC` if `p` and else to `NextPC`. -/
theorem exists_skipIf_eq_next {c : Bool} {p : Prop} [Decidable p] (hc : c = true ↔ p) (s : State) :
    ∃ t, skipIf c s = .next t ∧ t.pc = (if p then s.skipPc else s.nextPc) ∧ t.status = .ok ∧
      OnlyChanges s t [.pc, .status] := by
  refine ⟨_, complete_eq _ s, ?_, rfl, s.completed_onlyChanges _⟩
  by_cases hp : p
  · rw [if_pos (hc.2 hp), if_pos hp]; rfl
  · rw [if_neg (mt hc.1 hp), if_neg hp]; rfl

/-- The key asked about is the low nibble of V[x] (R144, D16). -/
theorem State.keyIsDown_keyNumber (s : State) (x : Reg) :
    s.keyIsDown (s.keyNumber x) = s.input.keysDown.getLsbD ((s.readV x).toNat % 16) := by
  rw [State.keyIsDown, State.keyNumber_val]

/-! ### The condition of each skip -/

section
variable (x y : Reg) (kk : Byte) (s : State)

theorem exec_seImm : exec (.seImm x kk) s = skipIf (s.readV x == kk) s := rfl

theorem exec_sneImm : exec (.sneImm x kk) s = skipIf (s.readV x != kk) s := rfl

theorem exec_seReg : exec (.seReg x y) s = skipIf (s.readV x == s.readV y) s := rfl

theorem exec_sneReg : exec (.sneReg x y) s = skipIf (s.readV x != s.readV y) s := rfl

theorem exec_skp : exec (.skp x) s = skipIf (s.input.keysDown.getLsbD ((s.readV x).toNat % 16)) s :=
  congrArg (skipIf · s) (s.keyIsDown_keyNumber x)

theorem exec_sknp : exec (.sknp x) s = skipIf (!s.input.keysDown.getLsbD ((s.readV x).toNat % 16)) s :=
  congrArg (fun down => skipIf (!down) s) (s.keyIsDown_keyNumber x)

end

/-! ### Groups 5 and 9 with a low nibble other than 0 (D15) -/

theorem decode_eq_unknown_of_n_ne_zero (x y : Reg) {n : Rows} (hn : n ≠ 0) :
    decode (wordXYN 0x5000 x y n) = .unknown (wordXYN 0x5000 x y n) ∧
      decode (wordXYN 0x9000 x y n) = .unknown (wordXYN 0x9000 x y n) := by
  simp (disch := decide) only [decode, fields_of_wordXYN]
  exact ⟨if_neg hn, if_neg hn⟩

/-- Settles O40. -/
theorem immediateSkipsCompare : Obligations.ImmediateSkipsCompare := by
  intro s x kk
  refine ⟨decode_encode (.seImm x kk) rfl, decode_encode (.sneImm x kk) rfl, ?_, ?_⟩
  · rw [exec_seImm]
    exact exists_skipIf_eq_next beq_iff_eq s
  · rw [exec_sneImm]
    exact exists_skipIf_eq_next bne_iff_ne s

/-- Settles O41. -/
theorem registerSkipsCompare : Obligations.RegisterSkipsCompare := by
  intro s x y
  refine ⟨decode_encode (.seReg x y) rfl, decode_encode (.sneReg x y) rfl,
    fun _ => decode_eq_unknown_of_n_ne_zero x y, ?_, ?_⟩
  · rw [exec_seReg]
    exact exists_skipIf_eq_next beq_iff_eq s
  · rw [exec_sneReg]
    exact exists_skipIf_eq_next bne_iff_ne s

/-- Settles O42: EXA1 skips when the key is not down, so its two targets stand the other way round. -/
theorem keySkipsAskOneKey : Obligations.KeySkipsAskOneKey := by
  intro s x
  refine ⟨decode_encode (.skp x) rfl, decode_encode (.sknp x) rfl, ?_⟩
  rw [exec_skp, exec_sknp]
  generalize s.input.keysDown.getLsbD ((s.readV x).toNat % 16) = down
  have hnot : (!down) = true ↔ ¬ down = true := by simp
  constructor
  · obtain ⟨t, ht, hpc, hok, hframe⟩ := exists_skipIf_eq_next (c := down) Iff.rfl s
    exact ⟨t, ht, hok, hframe, hpc⟩
  · obtain ⟨t, ht, hpc, hok, hframe⟩ := exists_skipIf_eq_next hnot s
    exact ⟨t, ht, hok, hframe, hpc.trans (ite_not ..)⟩

end Sys2Proof.Machine
end

section
/-! Register load, arithmetic, logic, shift and random (spec/42_alu.md): each writes one result to V[x], those of R165 a
flag to VF after it, goes to `NextPC` and changes nothing else. -/

namespace Sys2Proof.Machine

/-! ### The outcomes -/

section
variable (x y : Reg) (kk : Byte) (s : State)

theorem exec_ldImm : exec (.ldImm x kk) s = .next ((s.writeV x kk).completed .next) := rfl

theorem exec_addImm : exec (.addImm x kk) s = .next ((s.writeV x (s.readV x + kk)).completed .next) := rfl

theorem exec_ldReg : exec (.ldReg x y) s = .next ((s.writeV x (s.readV y)).completed .next) := rfl

theorem exec_or : exec (.or x y) s = .next ((s.writeV x (s.readV x ||| s.readV y)).completed .next) := rfl

theorem exec_and : exec (.and x y) s = .next ((s.writeV x (s.readV x &&& s.readV y)).completed .next) := rfl

theorem exec_xor : exec (.xor x y) s = .next ((s.writeV x (s.readV x ^^^ s.readV y)).completed .next) := rfl

theorem exec_rnd : exec (.rnd x kk) s = .next ((s.writeV x (s.input.rand &&& kk)).completed .next) := rfl

theorem exec_addReg : exec (.addReg x y) s =
    .next ((s.writeResultAndFlag x (s.readV x + s.readV y) (addCarry (s.readV x) (s.readV y))).completed .next) := rfl

theorem exec_sub : exec (.sub x y) s =
    .next ((s.writeResultAndFlag x (s.readV x - s.readV y) (noBorrow (s.readV x) (s.readV y))).completed .next) := rfl

theorem exec_subn : exec (.subn x y) s =
    .next ((s.writeResultAndFlag x (s.readV y - s.readV x) (noBorrow (s.readV y) (s.readV x))).completed .next) := rfl

theorem exec_shr : exec (.shr x y) s =
    .next ((s.writeResultAndFlag x (s.shiftSource x y >>> 1) (shiftedOutRight (s.shiftSource x y))).completed .next) :=
  rfl

theorem exec_shl : exec (.shl x y) s =
    .next ((s.writeResultAndFlag x (s.shiftSource x y <<< 1) (shiftedOutLeft (s.shiftSource x y))).completed .next) :=
  rfl

end

/-! ### What the writes leave in the state -/

theorem State.writeV_completed_onlyChanges (s : State) (x : Reg) (b : Byte) (o : PcOutcome) :
    OnlyChanges s ((s.writeV x b).completed o) [.v x, .pc, .status] :=
  onlyChanges_iff.2 (by simp +contextual [State.writeV_readV])

theorem State.writeResultAndFlag_completed_onlyChanges (s : State) (x : Reg) (b : Byte) (f : Bool) (o : PcOutcome) :
    OnlyChanges s ((s.writeResultAndFlag x b f).completed o) [.v x, .v VF, .pc, .status] :=
  onlyChanges_iff.2 (by simp +contextual [State.writeResultAndFlag, State.writeV_readV])

/-- The flag is written last, so it remains for `x = 15` (R165, D13). -/
theorem State.writeResultAndFlag_readV_flag (s : State) (x : Reg) (b : Byte) (f : Bool) :
    (s.writeResultAndFlag x b f).readV VF = flagByte f := by
  rw [State.writeResultAndFlag_readV, if_pos rfl]

theorem State.writeResultAndFlag_readV_result (s : State) {x : Reg} (hx : x ≠ VF) (b : Byte) (f : Bool) :
    (s.writeResultAndFlag x b f).readV x = b := by
  rw [State.writeResultAndFlag_readV, if_neg hx, if_pos rfl]

/-! ### The results and the flags as numbers -/

theorem flagByte_decide (p : Prop) [Decidable p] : flagByte (decide p) = if p then 1#8 else 0#8 := by
  by_cases hp : p <;> simp [flagByte, hp]

/-- The flag of a shift is one bit of the source. -/
theorem flagByte_getLsbD_toNat (b : Byte) (i : Nat) : (flagByte (b.getLsbD i)).toNat = b.toNat / 2 ^ i % 2 := by
  rw [← Nat.toNat_testBit, BitVec.testBit_toNat]
  cases b.getLsbD i <;> rfl

/-- Subtraction of bytes is that of the integers modulo 256 (R162). -/
theorem byte_sub_toNat (a b : Byte) : ((a - b).toNat : Int) = (a.toNat - b.toNat : Int) % 256 := by
  have ha := a.isLt
  have hb := b.isLt
  rw [BitVec.toNat_sub]
  omega

theorem flagByte_shiftedOutRight_toNat (b : Byte) : (flagByte (shiftedOutRight b)).toNat = b.toNat % 2 := by
  rw [shiftedOutRight, flagByte_getLsbD_toNat, pow_zero, Nat.div_one]

theorem flagByte_shiftedOutLeft_toNat (b : Byte) : (flagByte (shiftedOutLeft b)).toNat = b.toNat / 128 := by
  have hb := b.isLt
  rw [shiftedOutLeft, flagByte_getLsbD_toNat]
  omega

/-- Settles O43. -/
theorem loadsSetTheRegister : Obligations.LoadsSetTheRegister := by
  intro s x y kk
  refine ⟨decode_encode (.ldImm x kk) rfl, decode_encode (.ldReg x y) rfl, ?_, ?_⟩
  · exact ⟨_, exec_ldImm x kk s, s.writeV_readV_same x _, rfl, rfl, s.writeV_completed_onlyChanges x _ _⟩
  · exact ⟨_, exec_ldReg x y s, s.writeV_readV_same x _, rfl, rfl, s.writeV_completed_onlyChanges x _ _⟩

/-- Settles O44: addition of bytes is modulo 256. -/
theorem addImmediateWrapsWithoutFlag : Obligations.AddImmediateWrapsWithoutFlag := by
  intro s x kk
  refine ⟨decode_encode (.addImm x kk) rfl, _, exec_addImm x kk s, ?_, rfl, rfl,
    s.writeV_completed_onlyChanges x _ _⟩
  rw [State.completed_readV, State.writeV_readV_same, BitVec.toNat_add]

/-- Settles O45. -/
theorem logicCombinesBitwise : Obligations.LogicCombinesBitwise := by
  intro s x y
  refine ⟨decode_encode (.or x y) rfl, decode_encode (.and x y) rfl, decode_encode (.xor x y) rfl,
    ⟨_, exec_or x y s, rfl, rfl, s.writeV_completed_onlyChanges x _ _, fun k _ => ?_⟩,
    ⟨_, exec_and x y s, rfl, rfl, s.writeV_completed_onlyChanges x _ _, fun k _ => ?_⟩,
    ⟨_, exec_xor x y s, rfl, rfl, s.writeV_completed_onlyChanges x _ _, fun k _ => ?_⟩⟩
  · rw [State.completed_readV, State.writeV_readV_same, BitVec.getLsbD_or]
  · rw [State.completed_readV, State.writeV_readV_same, BitVec.getLsbD_and]
  · rw [State.completed_readV, State.writeV_readV_same, BitVec.getLsbD_xor]

/-- Settles O46: the carry is read from the unreduced sum. -/
theorem addSetsCarry : Obligations.AddSetsCarry := by
  intro s x y
  refine ⟨decode_encode (.addReg x y) rfl, _, exec_addReg x y s, ?_, fun hx => ?_, rfl, rfl,
    s.writeResultAndFlag_completed_onlyChanges x _ _ _⟩
  · exact (s.writeResultAndFlag_readV_flag x _ _).trans (flagByte_decide _)
  · rw [State.completed_readV, s.writeResultAndFlag_readV_result hx, BitVec.toNat_add]

/-- Settles O47: 8XY7 is 8XY5 with the operands the other way round, the destination still V[x]. -/
theorem subtractSetsNoBorrow : Obligations.SubtractSetsNoBorrow := by
  intro s x y
  refine ⟨decode_encode (.sub x y) rfl, decode_encode (.subn x y) rfl,
    ⟨_, exec_sub x y s, ?_, fun hx => ?_, rfl, rfl, s.writeResultAndFlag_completed_onlyChanges x _ _ _⟩,
    ⟨_, exec_subn x y s, ?_, fun hx => ?_, rfl, rfl, s.writeResultAndFlag_completed_onlyChanges x _ _ _⟩⟩
  · exact (s.writeResultAndFlag_readV_flag x _ _).trans (flagByte_decide _)
  · rw [State.completed_readV, s.writeResultAndFlag_readV_result hx, byte_sub_toNat]
  · exact (s.writeResultAndFlag_readV_flag x _ _).trans (flagByte_decide _)
  · rw [State.completed_readV, s.writeResultAndFlag_readV_result hx, byte_sub_toNat]

/-- Settles O48: the source of the statement is `shiftSource`. -/
theorem shiftsMoveOneBitOut : Obligations.ShiftsMoveOneBitOut := by
  intro s x y src hsrc
  obtain rfl : src = s.shiftSource x y := hsrc
  refine ⟨decode_encode (.shr x y) rfl, decode_encode (.shl x y) rfl,
    ⟨_, exec_shr x y s, ?_, fun hx => ?_, rfl, rfl, s.writeResultAndFlag_completed_onlyChanges x _ _ _⟩,
    ⟨_, exec_shl x y s, ?_, fun hx => ?_, rfl, rfl, s.writeResultAndFlag_completed_onlyChanges x _ _ _⟩⟩
  · rw [State.completed_readV, State.writeResultAndFlag_readV_flag, flagByte_shiftedOutRight_toNat]
  · rw [State.completed_readV, s.writeResultAndFlag_readV_result hx, BitVec.toNat_ushiftRight,
      Nat.shiftRight_eq_div_pow, pow_one]
  · rw [State.completed_readV, State.writeResultAndFlag_readV_flag, flagByte_shiftedOutLeft_toNat]
  · rw [State.completed_readV, s.writeResultAndFlag_readV_result hx, BitVec.toNat_shiftLeft, Nat.shiftLeft_eq,
      pow_one]

/-- Settles O49. -/
theorem randomByteIsMasked : Obligations.RandomByteIsMasked := by
  intro s x kk
  refine ⟨decode_encode (.rnd x kk) rfl, _, exec_rnd x kk s, fun k _ => ?_, rfl, rfl,
    s.writeV_completed_onlyChanges x _ _⟩
  rw [State.completed_readV, State.writeV_readV_same, BitVec.getLsbD_and]

end Sys2Proof.Machine
end

section
/-! Address register and memory transfer (spec/43_index_memory.md): ANNN, FX1E and FX29 write I modulo 4096; FX33, FX55
and FX65 move a block of bytes at I, all of it or, past the end of memory, none (R176), and leave I alone. -/

namespace Sys2Proof.Machine

section
variable {s t u : State}

/-! ### Frames put together -/

theorem Component.Same.trans {c : Component} (hst : c.Same s t) (htu : c.Same t u) : c.Same s u := by
  cases c <;> exact Eq.trans htu hst

/-- Completing an instruction adds PC and the status to what its writes change. -/
theorem OnlyChanges.completed {cs : List Component} (h : OnlyChanges s t cs) (o : PcOutcome) :
    OnlyChanges s (t.completed o) (.pc :: .status :: cs) := by
  intro c hc
  obtain ⟨hpc, hstatus, hcs⟩ : c ≠ .pc ∧ c ≠ .status ∧ c ∉ cs := by simpa using hc
  exact (h c hcs).trans (t.completed_onlyChanges o c (by simp [hpc, hstatus]))

/-! ### Writing I -/

theorem State.writeI_completed_onlyChanges (s : State) (n : Nat) (o : PcOutcome) :
    OnlyChanges s ((s.writeI n).completed o) [.i, .pc, .status] :=
  onlyChanges_iff.2 (by simp)

theorem State.writeI_writeV_completed_onlyChanges (s : State) (n : Nat) (x : Reg) (b : Byte) (o : PcOutcome) :
    OnlyChanges s (((s.writeI n).writeV x b).completed o) [.i, .v x, .pc, .status] :=
  onlyChanges_iff.2 (by simp +contextual [State.writeV_readV])

theorem exec_ldI (addr : Addr) (s : State) : exec (.ldI addr) s = .next ((s.writeI addr.toNat).completed .next) := rfl

theorem exec_ldF (x : Reg) (s : State) : exec (.ldF x) s = .next ((s.writeI (s.glyphAddress x)).completed .next) := rfl

theorem exec_addI_of_false (h : s.config.iOverflowSetsVf = false) (x : Reg) :
    exec (.addI x) s = .next ((s.writeI (s.i.toNat + (s.readV x).toNat)).completed .next) := by
  simp [exec, execAddI, h, complete_eq]

theorem exec_addI_of_true (h : s.config.iOverflowSetsVf = true) (x : Reg) :
    exec (.addI x) s = .next (((s.writeI (s.i.toNat + (s.readV x).toNat)).writeV VF
      (flagByte (indexOverflow s.i (s.readV x)))).completed .next) := by
  simp [exec, execAddI, h, complete_eq]

/-! ### Moving a block at I -/

/-- From a base inside memory, the lowest address past the end is 4096. -/
theorem withRange_past_of_lt {base len : Nat} (hbase : base < 4096) (h : 4096 < base + len) (k : Outcome) :
    withRange base len k = .fault (.outOfBounds 4096) := by
  rw [withRange_past (by omega) h, Nat.max_eq_right hbase.le]

theorem storeAtI_past_of_lt {bs : List Byte} (hI : s.i.toNat < 4096) (h : 4096 < s.i.toNat + bs.length) :
    storeAtI bs s = .fault (.outOfBounds 4096) := withRange_past_of_lt hI h _

/-- A store that fits: what it leaves at I, and its frame. -/
theorem exists_storeAtI_eq_next {bs : List Byte} (hm : s.mem.wf = true) (hfit : s.i.toNat + bs.length ≤ 4096) :
    ∃ t, storeAtI bs s = .next t ∧ (∀ k, k < bs.length → t.mem.read (s.i.toNat + k) = bs.getD k 0#8) ∧
      t.pc = s.nextPc ∧ t.status = .ok ∧ OnlyChanges s t (.pc :: .status :: memRange s.i.toNat bs.length) :=
  ⟨_, storeAtI_fits hfit, fun _ => Memory.read_writeBytes_add hm hfit, rfl, rfl,
    (State.setMem_writeBytes_onlyChanges hm hfit).completed _⟩

theorem exec_ldB (x : Reg) (s : State) : exec (.ldB x) s = storeAtI (bcdDigits (s.readV x)) s := rfl

theorem exec_stRegs (x : Reg) (s : State) : exec (.stRegs x) s = storeAtI (s.regsUpTo x) s := rfl

theorem exec_ldRegs (x : Reg) (s : State) :
    exec (.ldRegs x) s = withRange s.i.toNat (x.val + 1)
      (.next ((s.setRegs (fillRegs s.v 0 (s.bytesAtI (x.val + 1)))).completed .next)) := rfl

/-- The digits of a byte, as numbers; none of them is reduced modulo 256. -/
theorem bcdDigits_map_toNat (b : Byte) :
    (bcdDigits b).map BitVec.toNat = [b.toNat / 100, b.toNat / 10 % 10, b.toNat % 10] := by
  have hb := b.isLt
  simp only [bcdDigits, List.map_cons, List.map_nil, BitVec.toNat_ofNat, List.cons.injEq, and_true]
  omega

theorem bcdDigits_getD_toNat (b : Byte) (k : Nat) :
    ((bcdDigits b).getD k 0#8).toNat = [b.toNat / 100, b.toNat / 10 % 10, b.toNat % 10].getD k 0 := by
  rw [← bcdDigits_map_toNat]
  exact (List.getD_map ..).symm

theorem State.fillFromI_onlyChanges (s : State) (x : Reg) :
    OnlyChanges s (s.setRegs (fillRegs s.v 0 (s.bytesAtI (x.val + 1)))) (regRange x) := by
  refine onlyChanges_iff.2 ⟨fun r hr => ?_, by simp⟩
  have hlt : ¬ r ≤ x := fun hle => hr (mem_regRange.2 ⟨r, hle, rfl⟩)
  rw [State.fillFromI_readV, if_neg hlt]

end

/-- Settles O50. -/
theorem loadIndexSetsI : Obligations.LoadIndexSetsI := by
  intro s addr
  exact ⟨decode_encode (.ldI addr) rfl, _, exec_ldI addr s, mask12_addr addr, rfl, rfl,
    s.writeI_completed_onlyChanges _ _⟩

/-- Settles O51: I takes the sum with either setting of the flag; with it true the overflow goes to VF after that. -/
theorem addToIndexWraps : Obligations.AddToIndexWraps := by
  intro s x
  refine ⟨decode_encode (.addI x) rfl, ?_⟩
  cases hc : s.config.iOverflowSetsVf with
  | false =>
    exact ⟨_, exec_addI_of_false hc x, mask12_toNat _, rfl, rfl, fun _ => s.writeI_completed_onlyChanges _ _, nofun⟩
  | true =>
    refine ⟨_, exec_addI_of_true hc x, mask12_toNat _, rfl, rfl, nofun,
      fun _ => ⟨s.writeI_writeV_completed_onlyChanges _ VF _ _, ?_⟩⟩
    rw [State.completed_readV, State.writeV_readV_same]
    exact flagByte_decide _

/-- Settles O52. -/
theorem pointIndexAtGlyph : Obligations.PointIndexAtGlyph := by
  intro s x
  exact ⟨decode_encode (.ldF x) rfl, _, exec_ldF x s, mask12_toNat _, rfl, rfl, s.writeI_completed_onlyChanges _ _⟩

/-- Settles O53: the stored block is the list of the three digits. -/
theorem storeDecimalDigits : Obligations.StoreDecimalDigits := by
  intro s x
  rw [exec_ldB]
  refine ⟨decode_encode (.ldB x) rfl, fun hm hfit => ?_, fun hI hpast => ?_⟩
  · obtain ⟨t, ht, hread, hpc, hok, hframe⟩ := exists_storeAtI_eq_next (bs := bcdDigits (s.readV x)) hm hfit
    have hdigit (k : Nat) (hk : k < 3) := (congrArg BitVec.toNat (hread k hk)).trans (bcdDigits_getD_toNat _ k)
    exact ⟨t, ht, hdigit 0 (by decide), hdigit 1 (by decide), hdigit 2 (by decide), hpc, hok, hframe⟩
  · exact storeAtI_past_of_lt hI (Nat.lt_succ_of_le hpast)

/-- Settles O54: the `j`-th byte of the stored block is V[j]. -/
theorem storeRegistersAtI : Obligations.StoreRegistersAtI := by
  intro s x
  have hlen := s.regsUpTo_length x
  rw [exec_stRegs]
  refine ⟨decode_encode (.stRegs x) rfl, fun hm hfit => ?_, fun hI hpast => storeAtI_past_of_lt hI (by omega)⟩
  obtain ⟨t, ht, hread, hpc, hok, hframe⟩ := exists_storeAtI_eq_next (bs := s.regsUpTo x) hm (by omega)
  rw [hlen] at hread hframe
  refine ⟨t, ht, fun j hj => ?_, hpc, hok, hframe⟩
  rw [hread j.val (Nat.lt_succ_of_le hj), s.regsUpTo_getD x hj]

/-- Settles O55. -/
theorem loadRegistersFromI : Obligations.LoadRegistersFromI := by
  intro s x
  rw [exec_ldRegs]
  refine ⟨decode_encode (.ldRegs x) rfl, fun hfit => ?_, fun hI hpast => ?_⟩
  · refine ⟨_, withRange_fits (.inr hfit) _, fun j hj => ?_, rfl, rfl, (s.fillFromI_onlyChanges x).completed _⟩
    rw [State.completed_readV, State.fillFromI_readV, if_pos hj]
  · exact withRange_past_of_lt hI (Nat.lt_succ_of_le hpast) _

end Sys2Proof.Machine
end

section
/-! Display, keyboard wait and counters (spec/44_io_timers.md): the outcome of 00E0, DXYN, FX07, FX0A, FX15 and FX18, one
equation per case; and the meanings under another ST, which no instruction reads (R185). -/

namespace Sys2Proof.Machine

section
variable {s : State} (x y : Reg)

/-! ### The outcomes -/

theorem exec_cls (s : State) : exec .cls s = .next ((s.emit .clear).completed .next) := rfl

theorem exec_ldVxDt (s : State) : exec (.ldVxDt x) s = .next ((s.writeV x s.dt).completed .next) := rfl

theorem exec_ldDtVx (s : State) : exec (.ldDtVx x) s = .next ((s.writeDelay (s.readV x)).completed .next) := rfl

theorem exec_ldStVx (s : State) : exec (.ldStVx x) s = .next ((s.writeSound (s.readV x)).completed .next) := rfl

theorem exec_ldVxK_of_some {k : Key} (h : s.input.keyPress = some k) :
    exec (.ldVxK x) s = .next ((s.writeV x (BitVec.ofNat 8 k.val)).completed .next) := by
  simp only [exec, execLdVxK, h]

theorem exec_ldVxK_of_none (h : s.input.keyPress = none) : exec (.ldVxK x) s = .next s.waiting := by
  simp only [exec, execLdVxK, h]

theorem exec_drw_of_fits {n : Rows} (h : n.val = 0 ∨ s.i.toNat + n.val ≤ 4096) :
    exec (.drw x y n) s = .next (((s.emit (.draw (s.readV x) (s.readV y) (s.bytesAtI n.val))).writeV VF
      (flagByte s.input.collision)).completed .next) := withRange_fits h _

theorem exec_drw_past_of_lt {n : Rows} (hI : s.i.toNat < 4096) (h : 4096 < s.i.toNat + n.val) :
    exec (.drw x y n) s = .fault (.outOfBounds 4096) := withRange_past_of_lt hI h _

/-! ### What the writes leave in the state -/

theorem State.emit_completed_onlyChanges (s : State) (r : DisplayRequest) (o : PcOutcome) :
    OnlyChanges s ((s.emit r).completed o) [.requests, .pc, .status] :=
  onlyChanges_iff.2 (by simp)

theorem State.emit_writeV_completed_onlyChanges (s : State) (r : DisplayRequest) (b : Byte) (o : PcOutcome) :
    OnlyChanges s (((s.emit r).writeV x b).completed o) [.requests, .v x, .pc, .status] :=
  onlyChanges_iff.2 (by simp +contextual [State.writeV_readV])

theorem State.writeDelay_completed_onlyChanges (s : State) (b : Byte) (o : PcOutcome) :
    OnlyChanges s ((s.writeDelay b).completed o) [.dt, .pc, .status] :=
  onlyChanges_iff.2 (by simp)

theorem State.writeSound_completed_onlyChanges (s : State) (b : Byte) (o : PcOutcome) :
    OnlyChanges s ((s.writeSound b).completed o) [.st, .pc, .status] :=
  onlyChanges_iff.2 (by simp)

theorem State.waiting_onlyChanges (s : State) : OnlyChanges s s.waiting [.status] :=
  onlyChanges_iff.2 (by simp)

/-- A key number is stored zero-extended. -/
theorem byte_ofKey_toNat (k : Key) : (BitVec.ofNat 8 k.val).toNat = k.val :=
  Nat.mod_eq_of_lt (by omega)

end

/-! ### Another ST -/

/-- The same outcome with another value in ST. -/
def withSoundAfter (b : Byte) : Outcome → Outcome
  | .next t => .next (t.writeSound b)
  | .fault e => .fault e
  | .refused r => .refused r

section
variable {s : State} {b : Byte}

theorem complete_writeSound (o : PcOutcome) : complete o (s.writeSound b) = withSoundAfter b (complete o s) := by
  cases o <;> rfl

/-- The range check does not look at ST. -/
theorem withRange_withSoundAfter {base len : Nat} {k k' : Outcome} (h : k' = withSoundAfter b k) :
    withRange base len k' = withSoundAfter b (withRange base len k) := by
  rw [h]
  exact (apply_ite (withSoundAfter b) _ k (raise _)).symm

/-- FX18 overwrites whatever ST held. -/
theorem exec_ldStVx_writeSound (x : Reg) (s : State) (b : Byte) :
    exec (.ldStVx x) (s.writeSound b) = exec (.ldStVx x) s := rfl

/-- Every other meaning keeps ST and does not read it: each equation for `s` holds of `s.writeSound b` too. -/
theorem exec_writeSound {i : Instr} (hi : ∀ x, i ≠ .ldStVx x) (s : State) (b : Byte) :
    exec i (s.writeSound b) = withSoundAfter b (exec i s) := by
  cases i with
  | ldStVx x => exact absurd rfl (hi x)
  | seImm | sneImm | seReg | sneReg | skp | sknp => exact complete_writeSound _
  | drw | ldB | stRegs | ldRegs => exact withRange_withSoundAfter rfl
  | ret =>
    cases hs : s.stack with
    | nil => rw [exec_ret_of_nil hs, exec_ret_of_nil (s := s.writeSound b) hs]; rfl
    | cons w l => rw [exec_ret_of_cons hs, exec_ret_of_cons (s := s.writeSound b) hs]; rfl
  | call addr =>
    rcases Nat.lt_or_ge s.stack.length 12 with hl | hl
    · rw [exec_call_of_lt hl, exec_call_of_lt (s := s.writeSound b) hl]; rfl
    · rw [exec_call_of_ge hl, exec_call_of_ge (s := s.writeSound b) hl]; rfl
  | addI x =>
    cases hc : s.config.iOverflowSetsVf with
    | false => rw [exec_addI_of_false hc, exec_addI_of_false (s := s.writeSound b) hc]; rfl
    | true => rw [exec_addI_of_true hc, exec_addI_of_true (s := s.writeSound b) hc]; rfl
  | ldVxK x =>
    cases hk : s.input.keyPress with
    | none => rw [exec_ldVxK_of_none x hk, exec_ldVxK_of_none (s := s.writeSound b) x hk]; rfl
    | some k => rw [exec_ldVxK_of_some x hk, exec_ldVxK_of_some (s := s.writeSound b) x hk]; rfl
  | cls | jp | jpV0 | ldImm | addImm | ldReg | or | and | xor | addReg | sub | shr | subn | shl | ldI | rnd | ldVxDt
  | ldDtVx | ldF => rfl

end

/-- Settles O59: FX18 overwrites ST, and every other meaning carries it along unread. -/
theorem soundCounterIsSetAndNeverRead : Obligations.SoundCounterIsSetAndNeverRead := by
  refine ⟨fun s x => ⟨decode_encode (.ldStVx x) rfl, _, exec_ldStVx x s, rfl, rfl, rfl, rfl,
    s.writeSound_completed_onlyChanges _ _⟩, fun i s b => ?_⟩
  by_cases hi : ∃ x, i = .ldStVx x
  · obtain ⟨x, rfl⟩ := hi
    rw [exec_ldStVx_writeSound, exec_ldStVx]
    simp
  · rw [exec_writeSound (not_exists.1 hi)]
    cases exec i s with
    | next t => simp only [withSoundAfter, if_neg hi]
    | fault | refused => rfl

/-- Settles O56. -/
theorem clearSendsOneRequest : Obligations.ClearSendsOneRequest :=
  ⟨decode_encode .cls rfl, fun s => ⟨_, exec_cls s, rfl, rfl, rfl, s.emit_completed_onlyChanges _ _⟩⟩

/-- Settles O57: the rows sent are the bytes at I, and the flag written is the display's answer. -/
theorem drawSendsSpriteAndTakesCollision : Obligations.DrawSendsSpriteAndTakesCollision := by
  intro s x y n
  refine ⟨decode_encode (.drw x y n) rfl, fun hfit => ?_, fun hI hn hpast => exec_drw_past_of_lt x y hI (by omega)⟩
  refine ⟨_, exec_drw_of_fits x y hfit, ?_, ?_, rfl, rfl, s.emit_writeV_completed_onlyChanges VF _ _ _⟩
  · rw [← State.bytesAtI_eq]; rfl
  · rw [State.completed_readV, State.writeV_readV_same]; rfl

/-- Settles O58. -/
theorem delayCounterTransfers : Obligations.DelayCounterTransfers := by
  intro s x
  exact ⟨decode_encode (.ldVxDt x) rfl, decode_encode (.ldDtVx x) rfl,
    ⟨_, exec_ldVxDt x s, s.writeV_readV_same x _, rfl, rfl, s.writeV_completed_onlyChanges x _ _⟩,
    ⟨_, exec_ldDtVx x s, rfl, rfl, rfl, s.writeDelay_completed_onlyChanges _ _⟩⟩

/-- Settles O60: the step's key press decides between storing and waiting. -/
theorem keyWaitStoresOrWaits : Obligations.KeyWaitStoresOrWaits := by
  intro s x
  refine ⟨decode_encode (.ldVxK x) rfl, fun k hk => ?_, fun hk => ?_⟩
  · refine ⟨_, exec_ldVxK_of_some x hk, ?_, rfl, rfl, s.writeV_completed_onlyChanges x _ _⟩
    rw [State.completed_readV, State.writeV_readV_same, byte_ofKey_toNat]
  · exact ⟨_, exec_ldVxK_of_none x hk, rfl, s.waiting_onlyChanges⟩

end Sys2Proof.Machine
end

section
/-! The clock (spec/60_exceptions.md R214, R215): a batch of ticks subtracts its number from both counters, floored at
zero, so batches add up, and one `tick_timers` is the batch of one. -/

namespace Sys2Proof.Machine

@[simp] theorem countDown_zero (c : Byte) : countDown c 0 = c :=
  BitVec.eq_of_toNat_eq (countDown_toNat c 0)

theorem countDown_countDown (c : Byte) (m n : Nat) : countDown (countDown c m) n = countDown c (m + n) := by
  apply BitVec.eq_of_toNat_eq
  rw [countDown_toNat, countDown_toNat, countDown_toNat, Nat.sub_sub]

/-- One tick of one counter, as `tick_timers` writes it. -/
theorem countDown_one (c : Byte) : countDown c 1 = if 0 < c.toNat then c - 1 else c := by
  apply BitVec.eq_of_toNat_eq
  rw [countDown_toNat]
  split
  · next hpos => rw [BitVec.toNat_sub_of_le hpos]; rfl
  · next hzero => omega

theorem State.tickMany_zero (s : State) : s.tickMany 0 = s := by simp [State.tickMany]

theorem State.tickMany_tickMany (s : State) (m n : Nat) : (s.tickMany m).tickMany n = s.tickMany (m + n) := by
  simp only [State.tickMany, countDown_countDown]

theorem State.tickTimers_eq_tickMany (s : State) : s.tickTimers = s.tickMany 1 := by
  simp only [State.tickTimers, State.tickMany, countDown_one]

theorem State.tickMany_onlyChanges (s : State) (n : Nat) : OnlyChanges s (s.tickMany n) [.dt, .st] :=
  onlyChanges_iff.2 (by simp)

/-- Settles O20. -/
theorem tickLowersBothCounters : Obligations.TickLowersBothCounters := by
  intro s
  rw [State.tickTimers_eq_tickMany]
  exact ⟨countDown_toNat s.dt 1, countDown_toNat s.st 1, s.tickMany_onlyChanges 1⟩

/-- Settles O21, by induction on the number of ticks: the first of them can be split off a batch. -/
theorem batchOfTicksIsRepeatedTick : Obligations.BatchOfTicksIsRepeatedTick := by
  intro n s
  induction n generalizing s with
  | zero => exact s.tickMany_zero
  | succ n ih =>
    calc s.tickMany (n + 1) = (s.tickMany 1).tickMany n := by rw [State.tickMany_tickMany, Nat.add_comm]
      _ = s.tickTimers.tickMany n := by rw [State.tickTimers_eq_tickMany]
      _ = State.tickTimers^[n] s.tickTimers := ih _
      _ = State.tickTimers^[n + 1] s := (Function.iterate_succ_apply _ n s).symm

end Sys2Proof.Machine
end

section
/-! How a step ends (spec/60_exceptions.md R207, R212, R213): no meaning is refused; a meaning's error is its own and is
decided by the call stack and I alone; and a step's error is that of the fetch, of an Unknown opcode or of the meaning. -/

namespace Sys2Proof.Machine

section
variable {i : Instr} {s s' : State} {e : Fault}

/-! ### Refusals -/

theorem withRange_ne_refused {k : Outcome} {r : Refusal} (hk : k ≠ .refused r) (base len : Nat) :
    withRange base len k ≠ .refused r := by
  obtain ⟨-, hrun⟩ | ⟨-, -, hfault⟩ := withRange_cases base len k
  · rwa [hrun]
  · rw [hfault]; nofun

@[simp] theorem closeStep_eq_refused {o : Outcome} {r : Refusal} : closeStep o = .refused r ↔ o = .refused r := by
  cases o <;> simp [closeStep]

theorem exec_ne_refused (i : Instr) (s : State) (r : Refusal) : exec i s ≠ .refused r := by
  cases i with
  | ret =>
    cases hs : s.stack with
    | nil => rw [exec_ret_of_nil hs]; nofun
    | cons w l => rw [exec_ret_of_cons hs]; nofun
  | call addr =>
    rcases Nat.lt_or_ge s.stack.length 12 with hroom | hfull
    · rw [exec_call_of_lt hroom]; nofun
    · rw [exec_call_of_ge hfull]; nofun
  | drw | ldB | stRegs | ldRegs => exact withRange_ne_refused (complete_ne_refused _ _ r) _ _
  | cls | jp | jpV0 | seImm | sneImm | seReg | sneReg | skp | sknp | ldImm | addImm | ldReg | or | and | xor | rnd
  | addReg | sub | shr | subn | shl | ldI | addI | ldF | ldVxDt | ldVxK | ldDtVx | ldStVx => nofun

theorem step_ne_refused (s : State) (r : Refusal) : step s ≠ .refused r := by
  unfold step
  split
  · nofun
  · split
    · nofun
    · exact fun h => exec_ne_refused _ _ r (closeStep_eq_refused.1 h)

/-! ### Errors -/

/-- Of the whole state, an error of a meaning depends on the call stack and I only. -/
theorem exec_fault_of_same_stack_i (hstack : s'.stack = s.stack) (hI : s'.i = s.i) (h : exec i s = .fault e) :
    exec i s' = .fault e := by
  obtain ⟨rfl, hempty, rfl⟩ | ⟨addr, rfl, hfull, rfl⟩ | ⟨len, hi, h0, hpast, rfl⟩ := fault_of_exec h
  · exact exec_ret_of_nil (hstack.trans hempty)
  · exact exec_call_of_ge (hstack ▸ hfull) addr
  · rw [← hI] at hpast ⊢
    obtain ⟨x, y, n, rfl, rfl⟩ | ⟨x, rfl, rfl⟩ | ⟨x, rfl, rfl⟩ | ⟨x, rfl, rfl⟩ := hi
    · exact withRange_past h0 hpast _
    · exact storeAtI_past h0 hpast
    · rw [← s'.regsUpTo_length x] at h0 hpast
      exact storeAtI_past h0 hpast
    · exact withRange_past h0 hpast _

/-- The three sources of a step's error. -/
theorem step_eq_fault (h : step s = .fault e) :
    fetch s = .error e ∨
      (∃ w op, fetch s = .ok w ∧ decode w = .unknown op ∧ e = .unknownInstruction op) ∨
      ∃ w i, fetch s = .ok w ∧ decode w = .instr i ∧ exec i s.beginStep = .fault e := by
  unfold step raise at h
  rw [fetch_beginStep] at h
  split at h
  · next hfetch => cases h; exact .inl hfetch
  · next w hfetch =>
    split at h
    · next op hop => cases h; exact .inr (.inl ⟨w, op, hfetch, hop, rfl⟩)
    · next i hi => exact .inr (.inr ⟨w, i, hfetch, hi, closeStep_eq_fault.1 h⟩)

/-- A step's error is decided by what is fetched, the call stack and I. -/
theorem step_fault_of_same_fetch (hfetch : fetch s' = fetch s) (hstack : s'.stack = s.stack) (hI : s'.i = s.i)
    (h : step s = .fault e) : step s' = .fault e := by
  obtain hfail | ⟨w, op, hw, hop, rfl⟩ | ⟨w, i, hw, hi, hexec⟩ := step_eq_fault h
  · exact step_of_fetch_error (hfetch.trans hfail)
  · exact step_of_decode_unknown (hfetch.trans hw) hop
  · rw [step_of_decode (hfetch.trans hw) hi, closeStep_eq_fault]
    exact exec_fault_of_same_stack_i (s := s.beginStep) hstack hI hexec

end

/-- Settles O29. -/
theorem eachInstructionHasItsOwnError : Obligations.EachInstructionHasItsOwnError := by
  intro i s e h
  obtain ⟨hi, hempty, he⟩ | ⟨addr, hi, hfull, he⟩ | ⟨len, hi, -, -, he⟩ := fault_of_exec h
  · exact .inl ⟨hi, he, hempty⟩
  · exact .inr (.inl ⟨addr, hi, he, hfull⟩)
  · refine .inr (.inr ⟨_, he, le_max_right _ _, ?_⟩)
    obtain ⟨x, y, n, hi, -⟩ | ⟨x, hi, -⟩ | ⟨x, hi, -⟩ | ⟨x, hi, -⟩ := hi
    · exact .inl ⟨x, y, n, hi⟩
    · exact .inr (.inl ⟨x, hi⟩)
    · exact .inr (.inr (.inl ⟨x, hi⟩))
    · exact .inr (.inr (.inr ⟨x, hi⟩))

/-- Settles O30. -/
theorem noInstructionIsRefused : Obligations.NoInstructionIsRefused := ⟨exec_ne_refused, step_ne_refused⟩

/-- Settles O31: other inputs and further ticks change neither the fetch nor the call stack nor I. -/
theorem errorsDoNotDependOnInputs : Obligations.ErrorsDoNotDependOnInputs :=
  fun _ _ _ _ _ => step_fault_of_same_fetch rfl rfl rfl

end Sys2Proof.Machine
end

section
/-! The step that waits for a key (spec/60_exceptions.md R224, 44_io_timers.md R183): it runs FX0A with no key press, and
beside the ticks before it only the model's records of status and inputs change. -/

namespace Sys2Proof.Machine

section
variable {i : Instr} {s t : State}

/-- Only the wait leaves the status `WaitingForKey`: every other effect completes with `Ok`. -/
theorem Effect.waits_of_status (h : Effect i s t) (ht : t.status = .waitingForKey) :
    (∃ x, i = .ldVxK x) ∧ s.input.keyPress = none ∧ t = s.waiting := by
  cases h with
  | waits x hi hk hwait => exact ⟨⟨x, hi⟩, hk, hwait⟩
  | _ => next hdone => simp [hdone] at ht

/-- Everything a step that waits has done. -/
theorem step_eq_next_waiting (h : step s = .next t) (ht : t.status = .waitingForKey) :
    (∃ x, fetch s = .ok (encode (.ldVxK x))) ∧ s.input.keyPress = none ∧ t = s.beginStep.waiting.consumeInput := by
  obtain ⟨w, i, u, hfetch, hdecode, hexec, rfl⟩ := step_eq_next h
  obtain ⟨⟨x, rfl⟩, hkey, rfl⟩ := (effect_of_exec hexec).waits_of_status ht
  obtain ⟨-, rfl⟩ := encode_of_decode hdecode
  exact ⟨⟨x, hfetch⟩, hkey, rfl⟩

theorem State.waitingStep_onlyChanges (s : State) :
    OnlyChanges s s.beginStep.waiting.consumeInput [.dt, .st, .status, .inputs, .inputCount] :=
  onlyChanges_iff.2 (by simp [State.beginStep])

end

/-- Settles O33. -/
theorem waitingStepKeepsTheCore : Obligations.WaitingStepKeepsTheCore := by
  intro s t h ht
  obtain ⟨hopcode, hkey, rfl⟩ := step_eq_next_waiting h ht
  exact ⟨hopcode, hkey, countDown_toNat s.dt _, countDown_toNat s.st _, s.waitingStep_onlyChanges⟩

end Sys2Proof.Machine
end

section
/-! The first step after reset with nothing loaded (spec/70_reset_and_hazards.md R242): memory is all zero, so what is
fetched is 0x0000, which no row of the opcode map selects. -/

namespace Sys2Proof.Machine

theorem State.resetWith_mem_read (c : Config) (a : Nat) : (State.resetWith c).mem.read a = 0#8 := rfl

theorem fetch_resetWith {c : Config} (h : c.entryAddress.toNat % 4096 ≠ 4095) :
    fetch (State.resetWith c) = .ok 0x0000#16 := by
  have hpc : (State.resetWith c).pc.toNat + 1 < 4096 := by
    rw [State.resetWith_pc_toNat]
    omega
  rw [fetch_of_lt hpc, State.resetWith_mem_read, State.resetWith_mem_read]
  rfl

theorem decode_zero : decode 0x0000#16 = .unknown 0x0000#16 :=
  (decode_group0 (by decide)).trans (decodeGroup0_eq_unknown (by decide) (by decide))

/-- Settles O15: 0x0000 is an unknown opcode of group 0, and at 4095 the fetch has no second byte. -/
theorem freshCoreReportsUnknownZero : Obligations.FreshCoreReportsUnknownZero := fun c =>
  ⟨fun h => step_of_decode_unknown ((fetch_beginStep _).trans (fetch_resetWith h)) decode_zero,
    fun h => step_of_pc_last ((State.resetWith_pc_toNat c).trans h)⟩

end Sys2Proof.Machine
end
